-- ==== Sys2Proof/Word.lean ====
section
/-! DEFINITION. The word types of the block decoder (spec 00_scope.md R8): bytes, 565 words, RGBA32 words. -/

namespace Sys2Proof

/-- One byte of SRC, DST, a tile or an alpha table. -/
abbrev Byte := BitVec 8

/-- A 16-bit endpoint word in 565 packing (30_encoding.md R57), or a variant B alpha word (R54). -/
abbrev Half := BitVec 16

/-- A 32-bit word: an RGBA32 word (30_encoding.md R58), CIDX, CMD or STATUS. -/
abbrev Word := BitVec 32

end Sys2Proof
end

