-- ==== Sys2Proof/Syntax.lean ====
section
/-! DEFINITION. The syntax: variants, commands, the descriptor a command travels in, and the host's turns. -/

namespace Sys2Proof

/-- The three sibling formats (00_scope.md R2): A is BC1 (DXT1), B is BC2 (DXT3), C is BC3 (DXT5). -/
inductive Variant where
  | A
  | B
  | C
  deriving DecidableEq, Repr

/-- A command, one constructor per row of spec/opcode_table.json, with the operands of the assembler syntax in its order
(30_encoding.md R64): DST_BASE, SRC_BASE, LEN, WIDTH, HEIGHT, each an unsigned number (R46). -/
inductive Instr where
  /-- DECODE.BC1 dst, src, len, width, height (45_blit_and_commands.md R101). -/
  | decodeBc1 (dst src len width height : Nat)
  /-- DECODE.BC2 dst, src, len, width, height (45_blit_and_commands.md R102). -/
  | decodeBc2 (dst src len width height : Nat)
  /-- DECODE.BC3 dst, src, len, width, height (45_blit_and_commands.md R103). -/
  | decodeBc3 (dst src len width height : Nat)
  deriving DecidableEq, Repr

/-- The six fields one transaction on the command port carries (30_encoding.md R46). CMD is a 32-bit word; the other
fields are zero-extended naturals, whose widths are parameters (00_scope.md R7). -/
structure Descriptor where
  cmd : Word
  width : Nat
  height : Nat
  len : Nat
  srcBase : Nat
  dstBase : Nat
  deriving DecidableEq, Repr

/-- What the host can do (10_state.md R13, R30; 30_encoding.md R64, R65; 70_reset_and_hazards.md R119). -/
inductive HostOp where
  /-- Issue a command on the command port (R46). -/
  | command (d : Descriptor)
  /-- Read STATUS (R17). -/
  | readStatus
  /-- Write STATUS, which is refused (R17). -/
  | writeStatus (v : Word)
  /-- Read one byte of host memory, in SRC, in DST or elsewhere (20_memory.md R42). -/
  | readMem (addr : Nat)
  /-- Write one byte of host memory (70_reset_and_hazards.md R121 to R123). -/
  | writeMem (addr : Nat) (v : Byte)
  /-- The pseudo-instruction WAIT (30_encoding.md R64). -/
  | wait
  /-- Assert reset (70_reset_and_hazards.md R119). -/
  | reset
  deriving DecidableEq, Repr

/-- One turn of the run: a step of the decoder unit or one act of the host. The spec fixes no order between the two
agents (70_reset_and_hazards.md R127), so the order is data. Log 1. -/
inductive Turn where
  | unit
  | host (op : HostOp)
  deriving DecidableEq, Repr

end Sys2Proof
end

