-- ==== Sys2Proof/Config.lean ====
section
/-! DEFINITION. What is fixed for one machine: the constants of 00_scope.md R6, the parameters of R7 with the
platform's map of plain memory, and the free values of 93_implementation_defined.md. -/

namespace Sys2Proof

namespace Config

/-- BLOCK_BYTES (00_scope.md R6, 30_encoding.md R50): the bytes of one compressed block. -/
def blockBytes : Variant → Nat
  | .A => 8
  | .B => 16
  | .C => 16

/-- COLOR_INDEX_BITS (00_scope.md R6). -/
abbrev colorIndexBits : Nat := 2

/-- ALPHA_INDEX_BITS(C) (00_scope.md R6). -/
abbrev alphaIndexBits : Nat := 3

/-- A free byte (00_scope.md R11 "any value"): the byte at an address whose contents the spec leaves open. The first
argument is the draw (0 for the contents before anything was written, U1; a fresh number for every later loss or
racing read, U2 to U6), the second the address. No body: nothing can be proved of its value. Log 11. -/
opaque freeByte : Nat → Nat → Byte

/-- A free number for hidden state (93_implementation_defined.md U13): the draw, then which piece of state. Log 10. -/
opaque freeHidden : Nat → Nat → Nat

end Config

/-- A range of plain memory of the platform (20_memory.md R38, 70_reset_and_hazards.md R125): what the decoder unit may
read or write there. Log 7. -/
structure Region where
  base : Nat
  size : Nat
  readable : Bool
  writable : Bool
  deriving DecidableEq, Repr

/-- The open parameters of 00_scope.md R7, and the platform's map of plain memory. The spec makes each one an argument
of the model; State carries them and no step writes them (log 8). -/
structure Params where
  /-- DIM_BITS: the width of WIDTH and HEIGHT (92_eei_decisions.md D6). -/
  dimBits : Nat
  /-- LEN_BITS: the width of LEN (D7). -/
  lenBits : Nat
  /-- ADDR_BITS: the width of SRC_BASE and DST_BASE (D7). -/
  addrBits : Nat
  /-- LANES: how many blocks the hardware may decode at once; not observable (D17), so no step reads it. Log 17. -/
  lanes : Nat
  /-- The plain memory of the platform, in rising order of address (R125). -/
  map : List Region
  deriving DecidableEq, Repr

/-- The constraints of 00_scope.md R7, and regions listed in rising order without overlap. -/
def Params.wf (p : Params) : Bool :=
  decide (1 ≤ p.dimBits) && decide (1 ≤ p.lenBits) && decide (1 ≤ p.lanes) &&
    decide (p.map.Pairwise fun r r' => r.base + r.size ≤ r'.base)

/-- The parameters State.reset carries. DESIGN CHOICE (logs 7 and 8): DIM_BITS = 32 is the value R7 suggests; the rest
the spec leaves to the platform. -/
def Params.default : Params :=
  { dimBits := 32, lenBits := 64, addrBits := 64, lanes := 1
    map := [{ base := 0, size := 2 ^ 64, readable := true, writable := true }] }

end Sys2Proof
end

