-- ==== Sys2Proof/WellFormed.lean ====
section
/-! DEFINITION. Which commands can stand in a descriptor: every operand fits its field (30_encoding.md R46). -/

namespace Sys2Proof

/-- The operands fit the descriptor fields WIDTH, HEIGHT (DIM_BITS), LEN (LEN_BITS), SRC_BASE and DST_BASE (ADDR_BITS) of
30_encoding.md R46. Every other property of a command is judged when it is issued, not here. -/
def operandsFit (p : Params) (dst src len width height : Nat) : Bool :=
  decide (width < 2 ^ p.dimBits) && decide (height < 2 ^ p.dimBits) && decide (len < 2 ^ p.lenBits) &&
    decide (src < 2 ^ p.addrBits) && decide (dst < 2 ^ p.addrBits)

/-- A well-formed command under the parameters of the machine. -/
def Instr.wf (p : Params) : Instr → Bool
  | .decodeBc1 dst src len width height => operandsFit p dst src len width height
  | .decodeBc2 dst src len width height => operandsFit p dst src len width height
  | .decodeBc3 dst src len width height => operandsFit p dst src len width height

end Sys2Proof
end

