-- ==== Sys2Proof/Decode.lean ====
section
/-! DEFINITION. Decoding a command descriptor (30_encoding.md R48, R49, R66), total on every descriptor and rejecting by
name, and the encoder written from the same table. -/

namespace Sys2Proof

/-- Why a descriptor is no command. -/
inductive Reject where
  /-- CMD has VARIANT = 11 or a reserved bit set (30_encoding.md R49). -/
  | reservedCmd
  /-- A field holds a number wider than the port field (30_encoding.md R46); no such transaction exists. Log 18. -/
  | fieldTooWide
  deriving DecidableEq, Repr

/-- decode_cmd of 30_encoding.md R66, total over all CMD words. -/
def decodeCmd (cmd : Word) : Except Reject Variant :=
  if cmd.extractLsb' 2 30 ≠ 0#30 then .error .reservedCmd
  else if cmd.extractLsb' 0 2 = 0b00#2 then .ok .A
  else if cmd.extractLsb' 0 2 = 0b01#2 then .ok .B
  else if cmd.extractLsb' 0 2 = 0b10#2 then .ok .C
  else .error .reservedCmd

/-- The CMD word of each variant's command (30_encoding.md R48). -/
def cmdWord : Variant → Word
  | .A => 0x00000000#32
  | .B => 0x00000001#32
  | .C => 0x00000002#32

/-- The command of a variant with the operands of a descriptor (30_encoding.md R47, R64). -/
def commandOf (v : Variant) (d : Descriptor) : Instr :=
  match v with
  | .A => .decodeBc1 d.dstBase d.srcBase d.len d.width d.height
  | .B => .decodeBc2 d.dstBase d.srcBase d.len d.width d.height
  | .C => .decodeBc3 d.dstBase d.srcBase d.len d.width d.height

/-- The decoder: the command a descriptor stands for, or the name of what is wrong with it. -/
def decode (p : Params) (d : Descriptor) : Except Reject Instr :=
  match decodeCmd d.cmd with
  | .error r => .error r
  | .ok v =>
    if operandsFit p d.dstBase d.srcBase d.len d.width d.height then .ok (commandOf v d)
    else .error .fieldTooWide

/-- The encoder: the descriptor a command is issued as (30_encoding.md R48, R64). -/
def encode : Instr → Descriptor
  | .decodeBc1 dst src len width height =>
    { cmd := cmdWord .A, width := width, height := height, len := len, srcBase := src, dstBase := dst }
  | .decodeBc2 dst src len width height =>
    { cmd := cmdWord .B, width := width, height := height, len := len, srcBase := src, dstBase := dst }
  | .decodeBc3 dst src len width height =>
    { cmd := cmdWord .C, width := width, height := height, len := len, srcBase := src, dstBase := dst }

/-- The descriptor of an opcode-table word: the table's bits are those of CMD, the descriptor's first word, and every
further field is zero. Log 23. -/
def tableDescriptor (nbits w : Nat) : Descriptor :=
  { cmd := BitVec.ofNat 32 (w % 2 ^ nbits), width := 0, height := 0, len := 0, srcBase := 0, dstBase := 0 }

/-- What the decoder reads from a word of spec/opcode_table.json. A number with a bit above the 32 bits of CMD is no
table word. -/
def decodeTableWord (nbits w : Nat) : Option Instr :=
  if w % 2 ^ nbits < 2 ^ 32 then
    match decode Params.default (tableDescriptor nbits w) with
    | .ok i => some i
    | .error _ => none
  else none

end Sys2Proof
end

