-- ==== Sys2Proof/Machine/State.lean ====
section
/-! DEFINITION. The machine's state: everything spec/10_state.md gives the block decoder, the host's memory, and the
model's own fields (each named in a log entry); the reasons a step stops; the state after reset. -/

namespace Sys2Proof.Machine

/-- The command latch (10_state.md R20), with the two base addresses the unit needs to reach SRC and DST
(30_encoding.md R46, 20_memory.md R37; log 5). -/
structure Latch where
  /-- L_VARIANT. -/
  variant : Variant
  /-- L_WIDTH. -/
  width : Nat
  /-- L_HEIGHT. -/
  height : Nat
  /-- L_LEN. -/
  len : Nat
  /-- The latched SRC_BASE. -/
  srcBase : Nat
  /-- The latched DST_BASE. -/
  dstBase : Nat
  deriving DecidableEq, Repr

/-- The block cursor (10_state.md R21): BX, BY and OFF. -/
structure Cursor where
  /-- BX, the grid column. -/
  col : Nat
  /-- BY, the grid row. -/
  row : Nat
  /-- OFF, the SRC byte offset of the block. -/
  off : Nat
  deriving DecidableEq, Repr

/-- The per-block scratch registers (10_state.md R22 to R25). -/
structure Scratch where
  /-- PAL[0..3], RGBA32 words (R22). -/
  pal : Vector Word 4
  /-- ALPHA_B[0..15] (R23). -/
  alphaB : Vector Byte 16
  /-- ALPHA_C[0..7] (R23). -/
  alphaC : Vector Byte 8
  /-- CIDX, the color index word (R25). -/
  cidx : Word
  /-- AIDX, the alpha index word of variant C (R25). -/
  aidx : BitVec 48
  /-- TILE[0..63] (R24). -/
  tile : Vector Byte 64
  deriving DecidableEq, Repr

/-- Where the unit stands in the block at the cursor: about to check and read it, or about to blit its decoded tile.
The model's own field (log 2). -/
inductive Stage where
  | read
  | blit
  deriving DecidableEq, Repr

/-- A range of host memory whose bytes became any value, with the draw its free bytes are taken from (log 6). -/
structure Lost where
  base : Nat
  size : Nat
  draw : Nat
  deriving DecidableEq, Repr

/-- Host memory: the bytes that are known, in strictly rising order of address, and the ranges that were lost, newest
first. Every other byte is any value. It holds the address spaces SRC and DST (10_state.md R26, R27). Log 6. -/
structure Memory where
  cells : List Host.Cell
  lost : List Lost
  deriving DecidableEq, Repr

/-- The canonical form: addresses strictly rise, and no empty range is listed as lost. An unlisted address reads as no
fixed byte, so no entry can equal what it would read as without it. -/
def Memory.wf (m : Memory) : Bool :=
  decide (m.cells.Pairwise fun c c' => c.1 < c'.1) && m.lost.all fun r => decide (0 < r.size)

/-- The whole state. -/
structure State where
  /-- The parameters of the machine (00_scope.md R7), which no step writes. Log 8. -/
  params : Params
  /-- The turns still to come, oldest first. Log 1. -/
  pending : List Turn
  /-- What the host's last read returned. Log 16. -/
  readData : Word
  /-- STATUS (10_state.md R17). -/
  status : Word
  /-- The command latch (R20). -/
  latch : Latch
  /-- The block cursor (R21). -/
  cursor : Cursor
  /-- PAL, ALPHA_B, ALPHA_C, CIDX, AIDX, TILE (R22 to R25). -/
  scratch : Scratch
  /-- The unit's place in the current block. Log 2. -/
  stage : Stage
  /-- The host has written SRC or DST of the running command, so its DST region will be any value
  (20_memory.md R43, 70_reset_and_hazards.md R123). Log 12. -/
  dstLost : Bool
  /-- Host memory. -/
  mem : Memory
  /-- The number of the next free value. Log 11. -/
  draws : Nat
  deriving DecidableEq, Repr

/-- No step of this hardware faults: it has no fault mechanism (60_exceptions.md R110, R114), and
93_implementation_defined.md treats no entry as `fault`. So the type has no constructor. Log 22. -/
inductive Fault where
  deriving DecidableEq, Repr

/-- Why the model gives an input no meaning (00_scope.md R11, 60_exceptions.md R111). Each is safe: a run that ends here
has no further state, so nothing about it can be proved. -/
inductive Refusal where
  /-- Raised by exec for an instruction whose meaning is not written; safe. No instruction is left so. -/
  | notModelled (mnemonic : String)
  /-- Raised by the command port: a reserved CMD word (30_encoding.md R49); safe. -/
  | reservedCmd
  /-- Raised by the command port: a descriptor field wider than its port field (R46); safe. Log 18. -/
  | fieldTooWide
  /-- Raised by a decode command issued while STATE = BUSY (70_reset_and_hazards.md R124); safe. -/
  | busy
  /-- Raised by a decode command whose SRC region passes the top of the host address space (R125); safe. -/
  | srcWraps
  /-- Raised by a decode command whose DST region passes the top of the host address space (R125); safe. -/
  | dstWraps
  /-- Raised by a decode command whose SRC region is not all readable plain memory (R125, 20_memory.md R38); safe. -/
  | srcRegion
  /-- Raised by a decode command whose DST region is not all writable plain memory (R125, R38); safe. -/
  | dstRegion
  /-- Raised by a decode command whose SRC and DST ranges overlap (20_memory.md R39); safe. -/
  | overlap
  /-- Raised by a host write to STATUS (10_state.md R17); safe. -/
  | statusWrite
  /-- Raised by a host access to an address that is no plain memory of the platform: the spec gives no device
  behaviour (20_memory.md R38); safe. Log 20. -/
  | notPlainMemory
  deriving DecidableEq, Repr

/-- The state right after reset (10_state.md R29): STATUS reads 0. Memory lists nothing. The hidden registers, which R29
leaves unspecified, hold zero (DESIGN CHOICE, log 9), and the model's own fields what logs 1, 2, 8, 11, 12, 16 say. -/
def State.reset : State :=
  { params := Params.default
    pending := []
    readData := 0#32
    status := 0#32
    latch := { variant := .A, width := 0, height := 0, len := 0, srcBase := 0, dstBase := 0 }
    cursor := { col := 0, row := 0, off := 0 }
    scratch :=
      { pal := Vector.replicate 4 0#32, alphaB := Vector.replicate 16 0#8, alphaC := Vector.replicate 8 0#8
        cidx := 0#32, aidx := 0#48, tile := Vector.replicate 64 0#8 }
    stage := .read
    dstLost := false
    mem := { cells := [], lost := [] }
    draws := 1 }

end Sys2Proof.Machine
end

