-- ==== Sys2Proof/Machine/Flags.lean ====
section
/-! DEFINITION. The STATUS register's fields (10_state.md R17 to R19). The decoder has no other flags: the comparisons
`c0 > c1` and `a0 > a1` are transient and stored nowhere (R16). -/

namespace Sys2Proof.Machine

/-- The legal values of STATUS.STATE (10_state.md R17). -/
inductive UnitState where
  | idle
  | busy
  | done
  | error
  deriving DecidableEq, Repr

/-- The two error kinds ever produced (10_state.md R19). -/
inductive ErrKind where
  | none
  | inputTooShort
  deriving DecidableEq, Repr

/-- The code of a STATE value in bits 1:0 (R17). -/
def UnitState.code : UnitState → BitVec 2
  | .idle => 0#2
  | .busy => 1#2
  | .done => 2#2
  | .error => 3#2

/-- The code of an error kind in bits 7:4 (R17, R19). -/
def ErrKind.code : ErrKind → BitVec 4
  | .none => 0#4
  | .inputTooShort => 1#4

/-- The STATUS word with the given fields; every reserved bit is 0 (R17). -/
def statusWord (st : UnitState) (kind : ErrKind) : Word :=
  (st.code.setWidth 32) ||| (kind.code.setWidth 32 <<< 4)

/-- STATUS.STATE, bits 1:0. -/
def State.stateField (s : State) : BitVec 2 :=
  s.status.extractLsb' 0 2

/-- STATUS.ERR_KIND, bits 7:4. -/
def State.errKindField (s : State) : BitVec 4 :=
  s.status.extractLsb' 4 4

/-- STATE = BUSY. -/
def State.isBusy (s : State) : Bool :=
  s.stateField == UnitState.busy.code

end Sys2Proof.Machine
end

