-- ==== Sys2Proof/Machine/Operands.lean ====
section
/-! DEFINITION. The operand forms of the decoder: byte sequences read as little-endian numbers, the fields of the three
block formats, and the packed index fields (20_memory.md, 30_encoding.md, 43_bitstream.md). -/

namespace Sys2Proof.Machine

/-- LE (30_encoding.md R52, 00_scope.md R10): byte k of the sequence has weight 2^(8k). -/
def littleEndian : List Byte → Nat
  | [] => 0
  | b :: bs => b.toNat + 256 * littleEndian bs

/-- Bytes i .. i+n-1 of a block. -/
def bytesAt (blk : List Byte) (i n : Nat) : List Byte :=
  (blk.drop i).take n

/-- A 16-bit little-endian field of a block at byte i: c0, c1 or a variant B alpha word (R31, R53 to R55). -/
def half (blk : List Byte) (i : Nat) : Half :=
  BitVec.ofNat 16 (littleEndian (bytesAt blk i 2))

/-- A single byte field of a block: a0 or a1 (R55). -/
def byteAt (blk : List Byte) (i : Nat) : Byte :=
  BitVec.ofNat 8 (littleEndian (bytesAt blk i 1))

/-- CIDX, the 32-bit color index word at byte i of a block (R53 to R55). -/
def colorWord (blk : List Byte) (i : Nat) : Word :=
  BitVec.ofNat 32 (littleEndian (bytesAt blk i 4))

/-- AIDX, the 48-bit alpha index word of a variant C block, bytes 2 to 7 (R55). -/
def alphaWord (blk : List Byte) : BitVec 48 :=
  BitVec.ofNat 48 (littleEndian (bytesAt blk 2 6))

/-- EXTRACT (43_bitstream.md R83): field p of width n, least significant first. -/
def extract (word n p : Nat) : Nat :=
  (word >>> (n * p)) &&& ((1 <<< n) - 1)

/-- COLOR_INDEX of pixel p (43_bitstream.md R84, 30_encoding.md R60). -/
def colorIndex (cidx : Word) (p : Nat) : Fin 4 :=
  Fin.ofNat 4 (extract cidx.toNat Config.colorIndexBits p)

/-- ALPHA_INDEX of pixel p (43_bitstream.md R85, 30_encoding.md R61). -/
def alphaIndex (aidx : BitVec 48) (p : Nat) : Fin 8 :=
  Fin.ofNat 8 (extract aidx.toNat Config.alphaIndexBits p)

end Sys2Proof.Machine
end

