-- ==== Sys2Proof/Machine/Ops.lean ====
section
/-! DEFINITION. The shared operations: host memory and its plain regions, the grid of a command, beginning and ending a
command, raising InputTooShort (the decoder's one error), leaving ERROR, and reset. -/

namespace Sys2Proof.Machine

/-! ### Host memory (20_memory.md, 10_state.md R26, R27) -/

/-- The address lies in the lost range. -/
def Lost.covers (r : Lost) (a : Nat) : Bool :=
  decide (r.base ≤ a) && decide (a < r.base + r.size)

/-- The known byte at an address, if there is one. -/
def findCell (a : Nat) : List Host.Cell → Option Byte
  | [] => none
  | (b, v) :: rest => if a = b then some v else findCell a rest

/-- A list of cells in rising order, with the byte at one address set. -/
def setCell (a : Nat) (v : Byte) : List Host.Cell → List Host.Cell
  | [] => [(a, v)]
  | (b, w) :: rest =>
    if a < b then (a, v) :: (b, w) :: rest
    else if a = b then (a, v) :: rest
    else (b, w) :: setCell a v rest

/-- The draw an unlisted byte's free value is taken from: that of the newest loss covering it, else draw 0, the contents
before anything was written (93_implementation_defined.md U1). -/
def Memory.drawAt (m : Memory) (a : Nat) : Nat :=
  match m.lost.find? fun r => r.covers a with
  | some r => r.draw
  | none => 0

/-- What an unlisted address reads as: a free byte, the same at every read until the byte changes (20_memory.md R38). -/
def Memory.unlisted (m : Memory) (a : Nat) : Byte :=
  Config.freeByte (m.drawAt a) a

/-- The byte at an address. -/
def Memory.read (m : Memory) (a : Nat) : Byte :=
  (findCell a m.cells).getD (m.unlisted a)

/-- Memory after one byte is written. -/
def Memory.write (m : Memory) (a : Nat) (v : Byte) : Memory :=
  { m with cells := setCell a v m.cells }

/-- MemRead (00_scope.md R10): the n bytes from an address on. -/
def Memory.readBytes (m : Memory) (a n : Nat) : List Byte :=
  (List.range n).map fun k => m.read (a + k)

/-- Writes of single bytes, in order (MemWrite of 00_scope.md R10, byte by byte; 20_memory.md R36 leaves the grouping
open). -/
def Memory.writeAll (m : Memory) (stores : List Host.Cell) : Memory :=
  stores.foldl (fun m c => m.write c.1 c.2) m

/-- Memory after every byte of a range has become any value (00_scope.md R11), with a fresh draw. -/
def Memory.lose (m : Memory) (base size draw : Nat) : Memory :=
  if size = 0 then m
  else
    { cells := m.cells.filter fun c => !(Lost.mk base size draw).covers c.1
      lost := Lost.mk base size draw :: m.lost }

/-! ### The platform's plain memory (20_memory.md R38, 70_reset_and_hazards.md R125) -/

/-- The address lies in the region. -/
def regionHolds (r : Region) (a : Nat) : Bool :=
  decide (r.base ≤ a) && decide (a < r.base + r.size)

/-- Every address lo .. hi-1 lies in one of the regions that pass the test (the regions in rising order). -/
def covered (ok : Region → Bool) : List Region → Nat → Nat → Bool
  | [], lo, hi => decide (hi ≤ lo)
  | r :: rs, lo, hi =>
    if ok r && regionHolds r lo then covered ok rs (r.base + r.size) hi else covered ok rs lo hi

/-- The address is plain memory of the platform, inside the host address space. -/
def plainAt (p : Params) (a : Nat) : Bool :=
  decide (a < 2 ^ p.addrBits) && p.map.any fun r => regionHolds r a

/-! ### The block grid (45_blit_and_commands.md R93 to R97) -/

/-- bcx or bcy (R93): ceil(n/4). -/
def gridDim (n : Nat) : Nat :=
  (n + 3) / 4

/-- The grid has no block (R93, R104). -/
def emptyGrid (w h : Nat) : Bool :=
  gridDim w == 0 || gridDim h == 0

/-- N, the required input length (R96). -/
def requiredLen (v : Variant) (w h : Nat) : Nat :=
  gridDim w * gridDim h * Config.blockBytes v

/-- The bytes of the DST region: W*H*4 (10_state.md R27). -/
def rasterBytes (w h : Nat) : Nat :=
  w * h * 4

/-- The blocks of a grid in row-major order (R97), as (column, row). -/
def gridBlocks (w h : Nat) : List (Nat × Nat) :=
  (List.range (gridDim h)).flatMap fun y => (List.range (gridDim w)).map fun x => (x, y)

/-- The cursor at the first block (R100). -/
def Cursor.first : Cursor :=
  { col := 0, row := 0, off := 0 }

/-- The cursor stands at the last block of the grid. -/
def Cursor.isLast (c : Cursor) (w h : Nat) : Bool :=
  decide (gridDim w ≤ c.col + 1) && decide (gridDim h ≤ c.row + 1)

/-- The cursor after one block (R97): row-major, OFF advanced by BB. -/
def Cursor.advance (c : Cursor) (w bb : Nat) : Cursor :=
  if c.col + 1 < gridDim w then { col := c.col + 1, row := c.row, off := c.off + bb }
  else { col := 0, row := c.row + 1, off := c.off + bb }

/-! ### Hidden state of any value (93_implementation_defined.md U13; log 10) -/

/-- The command latch holding any value its registers can hold. -/
def freeLatch (p : Params) (draw : Nat) : Latch :=
  let x := Config.freeHidden draw
  { variant := if x 0 % 3 = 0 then .A else if x 0 % 3 = 1 then .B else .C
    width := x 1 % 2 ^ p.dimBits
    height := x 2 % 2 ^ p.dimBits
    len := x 3 % 2 ^ p.lenBits
    srcBase := x 4 % 2 ^ p.addrBits
    dstBase := x 5 % 2 ^ p.addrBits }

/-- The block cursor holding any value. -/
def freeCursor (draw : Nat) : Cursor :=
  let x := Config.freeHidden draw
  { col := x 6, row := x 7, off := x 8 }

/-- The scratch registers holding any value. -/
def freeScratch (draw : Nat) : Scratch :=
  let x := Config.freeHidden draw
  { pal := Vector.ofFn fun i => BitVec.ofNat 32 (x (16 + i.val))
    alphaB := Vector.ofFn fun i => BitVec.ofNat 8 (x (32 + i.val))
    alphaC := Vector.ofFn fun i => BitVec.ofNat 8 (x (48 + i.val))
    cidx := BitVec.ofNat 32 (x 9)
    aidx := BitVec.ofNat 48 (x 10)
    tile := Vector.ofFn fun i => BitVec.ofNat 8 (x (64 + i.val)) }

/-! ### The command's life (45_blit_and_commands.md R100, 10_state.md R18) -/

/-- The address lies in SRC of the running command: an offset 0 .. L-1 (10_state.md R26). -/
def State.inSrc (s : State) (a : Nat) : Bool :=
  decide (s.latch.srcBase ≤ a) && decide (a < s.latch.srcBase + s.latch.len)

/-- The address lies in DST of the running command: an offset 0 .. W*H*4-1 (10_state.md R27). -/
def State.inDst (s : State) (a : Nat) : Bool :=
  decide (s.latch.dstBase ≤ a) && decide (a < s.latch.dstBase + rasterBytes s.latch.width s.latch.height)

/-- The state once a command is accepted (R100): the latch written, the cursor at the first block, ERR_KIND 0 and STATE
BUSY. This is also how ERROR is left (60_exceptions.md R115). -/
def State.beginCommand (s : State) (l : Latch) : State :=
  { s with
    status := statusWord .busy .none
    latch := l
    cursor := Cursor.first
    stage := .read
    dstLost := false }

/-- The state once the running command is over: the new STATUS word, the DST region any value if it is lost, and hidden
state any value (10_state.md R20, R21, R25, R29). -/
def State.endCommand (s : State) (word : Word) (lost : Bool) : State :=
  { s with
    status := word
    latch := freeLatch s.params s.draws
    cursor := freeCursor s.draws
    scratch := freeScratch s.draws
    stage := .read
    dstLost := false
    mem :=
      if lost then s.mem.lose s.latch.dstBase (rasterBytes s.latch.width s.latch.height) s.draws else s.mem
    draws := s.draws + 1 }

/-- Every block is decoded and blitted (R100): STATE becomes DONE. If the host wrote SRC or DST meanwhile, the DST region
is any value (20_memory.md R43, 70_reset_and_hazards.md R123). -/
def State.finish (s : State) : State :=
  s.endCommand (statusWord .done .none) s.dstLost

/-- `raise InputTooShort` (60_exceptions.md R106 to R109, R114), the decoder's one error: STATE becomes ERROR, ERR_KIND 1,
the command ends and its DST region is any value (R108). Nothing is saved and control goes nowhere (R114). -/
def State.raiseInputTooShort (s : State) : State :=
  s.endCommand (statusWord .error .inputTooShort) true

/-- Reset (70_reset_and_hazards.md R119, R120): STATUS reads 0, hidden state is any value, and a command that was running
leaves its DST region any value. Host memory is otherwise unchanged. Log 14. -/
def State.assertReset (s : State) : State :=
  s.endCommand (statusWord .idle .none) s.isBusy

end Sys2Proof.Machine
end

