-- ==== Sys2Proof/Machine/Commands.lean ====
section
/-! DEFINITION. The three decode commands (45_blit_and_commands.md R100 to R104): acceptance, or the refusal of
60_exceptions.md R111. What an accepted command then does is the sequencer's steps (Sequencer.lean). -/

namespace Sys2Proof.Machine

/-- The ranges lo .. lo+n-1 and lo' .. lo'+n'-1 share an address (20_memory.md R39). -/
def rangesOverlap (lo n lo' n' : Nat) : Bool :=
  decide (max lo lo' < min (lo + n) (lo' + n'))

/-- Why a command that is not of zero size is refused for its regions, if it is (70_reset_and_hazards.md R125,
20_memory.md R38, R39). -/
def regionRefusal (p : Params) (dst src len width height : Nat) : Option Refusal :=
  if src + len > 2 ^ p.addrBits then some .srcWraps
  else if dst + rasterBytes width height > 2 ^ p.addrBits then some .dstWraps
  else if !covered (fun r => r.readable) p.map src (src + len) then some .srcRegion
  else if !covered (fun r => r.writable) p.map dst (dst + rasterBytes width height) then some .dstRegion
  else if rangesOverlap src len dst (rasterBytes width height) then some .overlap
  else none

/-- Why a command is refused, if it is (60_exceptions.md R111): BUSY (70_reset_and_hazards.md R124), or its regions,
which a zero-size command is never refused for (45_blit_and_commands.md R104). -/
def commandRefusal (s : State) (dst src len width height : Nat) : Option Refusal :=
  if s.isBusy then some .busy
  else if width = 0 ∨ height = 0 then none
  else regionRefusal s.params dst src len width height

/-- The `on accept` of the SEQUENCER (R100) for one variant. -/
def acceptCommand (v : Variant) (dst src len width height : Nat) (s : State) : Host.Outcome State Fault Refusal :=
  match commandRefusal s dst src len width height with
  | some r => .refused r
  | none =>
    .next (s.beginCommand
      { variant := v, width := width, height := height, len := len, srcBase := src, dstBase := dst })

/-- DECODE.BC1 (R101): SEQUENCER with v = A. -/
def execDecodeBc1 (dst src len width height : Nat) (s : State) : Host.Outcome State Fault Refusal :=
  acceptCommand .A dst src len width height s

/-- DECODE.BC2 (R102): SEQUENCER with v = B. -/
def execDecodeBc2 (dst src len width height : Nat) (s : State) : Host.Outcome State Fault Refusal :=
  acceptCommand .B dst src len width height s

/-- DECODE.BC3 (R103): SEQUENCER with v = C. -/
def execDecodeBc3 (dst src len width height : Nat) (s : State) : Host.Outcome State Fault Refusal :=
  acceptCommand .C dst src len width height s

end Sys2Proof.Machine
end

