-- ==== Sys2Proof/Machine/Dispatch.lean ====
section
/-! DEFINITION. One arm per command: the meaning of each instruction, when it is issued. -/

namespace Sys2Proof.Machine

def exec (i : Instr) (s : State) : Host.Outcome State Fault Refusal :=
  match i with
  | .decodeBc1 dst src len width height => Sys2Proof.Machine.execDecodeBc1 dst src len width height s
  | .decodeBc2 dst src len width height => Sys2Proof.Machine.execDecodeBc2 dst src len width height s
  | .decodeBc3 dst src len width height => Sys2Proof.Machine.execDecodeBc3 dst src len width height s

end Sys2Proof.Machine
end

