-- ==== Sys2Proof/Machine/Blit.lean ====
section
/-! DEFINITION. The tile-to-raster blitter (45_blit_and_commands.md R94, R95, R98). -/

namespace Sys2Proof.Machine

/-- validWidth(bx) (R94): the tile columns copied for block column bx. -/
def validWidth (w col : Nat) : Nat :=
  if col + 1 = gridDim w then (w + 3) % 4 + 1 else 4

/-- The DST offset of raster pixel (x, y) (30_encoding.md R63). -/
def pixelOffset (w x y : Nat) : Nat :=
  (y * w + x) * 4

/-- The four bytes of tile pixel (j, i), at the DST offset the blitter gives it (R98). -/
def blitPixel (w col row : Nat) (tile : Vector Byte 64) (i j : Nat) : List (Nat × Byte) :=
  (List.range 4).map fun c =>
    (pixelOffset w (col * 4 + j) (row * 4 + i) + c, tile.get (Fin.ofNat 64 ((4 * i + j) * 4 + c)))

/-- The writes of BLIT for one block (R98), as (DST offset, byte) in order: tile row i only while row*4 + i < H (R95), and
of each row the first validWidth pixels (R94). -/
def blitStores (w h col row : Nat) (tile : Vector Byte 64) : List (Nat × Byte) :=
  (List.range 4).flatMap fun i =>
    if row * 4 + i < h then (List.range (validWidth w col)).flatMap fun j => blitPixel w col row tile i j else []

/-- BLIT (R98): the writes carried out in the DST space that starts at an address. -/
def blit (m : Memory) (dst w h col row : Nat) (tile : Vector Byte 64) : Memory :=
  m.writeAll ((blitStores w h col row tile).map fun c => (dst + c.1, c.2))

end Sys2Proof.Machine
end

