-- ==== Sys2Proof/Machine/AlphaTable.lean ====
section
/-! DEFINITION. The alpha table interpolator (42_alpha.md): ALPHA_TABLE_B, ALPHA_TABLE_C. -/

namespace Sys2Proof.Machine

/-- The 4-bit alpha nibble of pixel p of a variant B block: nibble p mod 4 of the little-endian word p div 4
(30_encoding.md R62). -/
def alphaNibble (blk : List Byte) (p : Nat) : Nat :=
  extract (half blk (2 * (p / 4))).toNat 4 (p % 4)

/-- ALPHA_TABLE_B (R79): each nibble times 17. -/
def alphaTableB (blk : List Byte) : Vector Byte 16 :=
  Vector.ofFn fun p => BitVec.ofNat 8 (alphaNibble blk p.val * 17)

/-- Entry k+1 of a gradient of n steps between the alpha endpoints (R80): (a0*(n-k) + a1*k) / n, truncating. -/
def alphaStep (a0 a1 : Byte) (n k : Nat) : Byte :=
  BitVec.ofNat 8 ((a0.toNat * (n - k) + a1.toNat * k) / n)

/-- ALPHA_TABLE_C (R80). The comparison is of the bytes, unsigned. -/
def alphaTableC (a0 a1 : Byte) : Vector Byte 8 :=
  if a0 > a1 then
    #v[a0, a1, alphaStep a0 a1 7 1, alphaStep a0 a1 7 2, alphaStep a0 a1 7 3, alphaStep a0 a1 7 4,
      alphaStep a0 a1 7 5, alphaStep a0 a1 7 6]
  else
    #v[a0, a1, alphaStep a0 a1 5 1, alphaStep a0 a1 5 2, alphaStep a0 a1 5 3, alphaStep a0 a1 5 4, 0#8, 255#8]

end Sys2Proof.Machine
end

