-- ==== Sys2Proof/Machine/ColorCodec.lean ====
section
/-! DEFINITION. The color codec (40_color_codec.md): UNPACK565, PACKRGBA, UNPACKRGBA. -/

namespace Sys2Proof.Machine

/-- Three 8-bit channels. -/
structure Rgb where
  r : Byte
  g : Byte
  b : Byte
  deriving DecidableEq, Repr

/-- Four 8-bit channels, in raster order R, G, B, A. -/
structure Rgba where
  r : Byte
  g : Byte
  b : Byte
  a : Byte
  deriving DecidableEq, Repr

/-- A 5-bit field left-aligned in 8 bits, its top 3 bits replicated into the bottom 3 (R67). -/
def expand5 (x : BitVec 5) : Byte :=
  (x.setWidth 8 <<< 3) ||| (x.setWidth 8 >>> 2)

/-- A 6-bit field left-aligned in 8 bits, its top 2 bits replicated into the bottom 2 (R67). -/
def expand6 (x : BitVec 6) : Byte :=
  (x.setWidth 8 <<< 2) ||| (x.setWidth 8 >>> 4)

/-- UNPACK565 (R67), with the fields of 30_encoding.md R57. -/
def unpack565 (w : Half) : Rgb :=
  { r := expand5 (w.extractLsb' 11 5)
    g := expand6 (w.extractLsb' 5 6)
    b := expand5 (w.extractLsb' 0 5) }

/-- PACKRGBA (R68), in the layout of 30_encoding.md R58. -/
def packRgba (r g b a : Byte) : Word :=
  b.setWidth 32 ||| (g.setWidth 32 <<< 8) ||| (r.setWidth 32 <<< 16) ||| (a.setWidth 32 <<< 24)

/-- UNPACKRGBA (R69). -/
def unpackRgba (u : Word) : Rgba :=
  { r := u.extractLsb' 16 8
    g := u.extractLsb' 8 8
    b := u.extractLsb' 0 8
    a := u.extractLsb' 24 8 }

/-- Channel c of a pixel in the byte order of tile and raster: R, G, B, A (R69, 30_encoding.md R63). -/
def Rgba.channel (x : Rgba) (c : Nat) : Byte :=
  match c with
  | 0 => x.r
  | 1 => x.g
  | 2 => x.b
  | _ => x.a

end Sys2Proof.Machine
end

