-- ==== Sys2Proof/Machine/Palette.lean ====
section
/-! DEFINITION. The palette interpolator (41_palette.md): PALETTE_A, PALETTE_B, PALETTE_C. -/

namespace Sys2Proof.Machine

/-- w23 (R72): (2*x0 + x1) / 3, truncating. -/
def w23 (x0 x1 : Byte) : Byte :=
  BitVec.ofNat 8 ((2 * x0.toNat + x1.toNat) / 3)

/-- w13 (R72): (x0 + 2*x1) / 3, truncating. -/
def w13 (x0 x1 : Byte) : Byte :=
  BitVec.ofNat 8 ((x0.toNat + 2 * x1.toNat) / 3)

/-- avg (R72): (x0 + x1) / 2, truncating. -/
def avg (x0 x1 : Byte) : Byte :=
  BitVec.ofNat 8 ((x0.toNat + x1.toNat) / 2)

/-- One interpolation applied to each channel of two triples (R72). -/
def Rgb.zip (f : Byte → Byte → Byte) (x y : Rgb) : Rgb :=
  { r := f x.r y.r, g := f x.g y.g, b := f x.b y.b }

/-- The palette entry of a triple with an alpha. -/
def Rgb.entry (x : Rgb) (alpha : Byte) : Word :=
  packRgba x.r x.g x.b alpha

/-- PALETTE_A (R73). The comparison is of the raw words, unsigned (R72). -/
def paletteA (c0 c1 : Half) : Vector Word 4 :=
  let e0 := unpack565 c0
  let e1 := unpack565 c1
  if c0 > c1 then
    #v[e0.entry 255, e1.entry 255, (Rgb.zip w23 e0 e1).entry 255, (Rgb.zip w13 e0 e1).entry 255]
  else
    #v[e0.entry 255, e1.entry 255, (Rgb.zip avg e0 e1).entry 255, packRgba 0 0 0 0]

/-- PALETTE_B (R74): entry 2 follows the comparison, entry 3 does not; every alpha is 0. -/
def paletteB (c0 c1 : Half) : Vector Word 4 :=
  let e0 := unpack565 c0
  let e1 := unpack565 c1
  let e2 := if c0 > c1 then Rgb.zip w23 e0 e1 else Rgb.zip avg e0 e1
  #v[e0.entry 0, e1.entry 0, e2.entry 0, (Rgb.zip w13 e0 e1).entry 0]

/-- PALETTE_C (R75): both interpolants, whatever the order of c0 and c1; every alpha is 0. -/
def paletteC (c0 c1 : Half) : Vector Word 4 :=
  let e0 := unpack565 c0
  let e1 := unpack565 c1
  #v[e0.entry 0, e1.entry 0, (Rgb.zip w23 e0 e1).entry 0, (Rgb.zip w13 e0 e1).entry 0]

end Sys2Proof.Machine
end

