-- ==== Sys2Proof/Machine/BlockDecode.lean ====
section
/-! DEFINITION. The three block decoders (44_block_decode.md): each reads the bytes of one block and writes the scratch
registers of its variant. -/

namespace Sys2Proof.Machine

/-- A tile from the RGBA32 word of each pixel (R88): byte 4p + c is channel c of pixel p. -/
def tileOf (px : Nat → Word) : Vector Byte 64 :=
  Vector.ofFn fun k => (unpackRgba (px (k.val / 4))).channel (k.val % 4)

/-- A palette entry with an alpha in bits 31:24 (R90, R91, R92). -/
def withAlpha (entry : Word) (alpha : Byte) : Word :=
  entry ||| (alpha.setWidth 32 <<< 24)

/-- The RGBA32 word of pixel p in variant A (R89). -/
def pixelA (pal : Vector Word 4) (cidx : Word) (p : Nat) : Word :=
  pal.get (colorIndex cidx p)

/-- The RGBA32 word of pixel p in variant B (R90). -/
def pixelB (pal : Vector Word 4) (alpha : Vector Byte 16) (cidx : Word) (p : Nat) : Word :=
  withAlpha (pal.get (colorIndex cidx p)) (alpha.get (Fin.ofNat 16 p))

/-- The RGBA32 word of pixel p in variant C (R91). -/
def pixelC (pal : Vector Word 4) (alpha : Vector Byte 8) (cidx : Word) (aidx : BitVec 48) (p : Nat) : Word :=
  withAlpha (pal.get (colorIndex cidx p)) (alpha.get (alphaIndex aidx p))

/-- DECODE_BLOCK_A (R89): writes PAL, CIDX, TILE. -/
def decodeBlockA (blk : List Byte) (sc : Scratch) : Scratch :=
  let pal := paletteA (half blk 0) (half blk 2)
  let cidx := colorWord blk 4
  { sc with pal := pal, cidx := cidx, tile := tileOf (pixelA pal cidx) }

/-- DECODE_BLOCK_B (R90): writes ALPHA_B, PAL, CIDX, TILE. -/
def decodeBlockB (blk : List Byte) (sc : Scratch) : Scratch :=
  let alpha := alphaTableB blk
  let pal := paletteB (half blk 8) (half blk 10)
  let cidx := colorWord blk 12
  { sc with alphaB := alpha, pal := pal, cidx := cidx, tile := tileOf (pixelB pal alpha cidx) }

/-- DECODE_BLOCK_C (R91): writes ALPHA_C, AIDX, PAL, CIDX, TILE. -/
def decodeBlockC (blk : List Byte) (sc : Scratch) : Scratch :=
  let aidx := alphaWord blk
  let alpha := alphaTableC (byteAt blk 0) (byteAt blk 1)
  let pal := paletteC (half blk 8) (half blk 10)
  let cidx := colorWord blk 12
  { sc with alphaC := alpha, aidx := aidx, pal := pal, cidx := cidx, tile := tileOf (pixelC pal alpha cidx aidx) }

/-- The block decoder the sequencer invokes for a variant (R100). -/
def decodeBlock (v : Variant) (blk : List Byte) (sc : Scratch) : Scratch :=
  match v with
  | .A => decodeBlockA blk sc
  | .B => decodeBlockB blk sc
  | .C => decodeBlockC blk sc

end Sys2Proof.Machine
end

