-- ==== Sys2Proof/Machine/Sequencer.lean ====
section
/-! DEFINITION. The block sequencer's steps (45_blit_and_commands.md R100): two a block, the first checks the length and
decodes the block, the second blits its tile and advances the cursor (log 2). -/

namespace Sys2Proof.Machine

/-- The bytes of the block at the cursor: MemRead(OFF, BB) in SRC (30_encoding.md R51, 20_memory.md R35). -/
def State.blockAtCursor (s : State) : List Byte :=
  s.mem.readBytes (s.latch.srcBase + s.cursor.off) (Config.blockBytes s.latch.variant)

/-- The first step of a block. An empty grid is DONE at once (R104). The length is compared with L_LEN before any byte of
the block is read (60_exceptions.md R107); the block is then read and decoded into the scratch registers. -/
def readStep (s : State) : State :=
  if emptyGrid s.latch.width s.latch.height then s.finish
  else if s.cursor.off + Config.blockBytes s.latch.variant > s.latch.len then s.raiseInputTooShort
  else
    { s with
      scratch := decodeBlock s.latch.variant s.blockAtCursor s.scratch
      stage := .blit }

/-- The second step of a block: BLIT(BX, BY), then the next block, or DONE after the last one (R100). The scratch
registers are dead once the tile is blitted (10_state.md R25): any value (log 10). -/
def blitStep (s : State) : State :=
  let mem := blit s.mem s.latch.dstBase s.latch.width s.latch.height s.cursor.col s.cursor.row s.scratch.tile
  if s.cursor.isLast s.latch.width s.latch.height then State.finish { s with mem := mem }
  else
    { s with
      mem := mem
      cursor := s.cursor.advance s.latch.width (Config.blockBytes s.latch.variant)
      scratch := freeScratch s.draws
      stage := .read
      draws := s.draws + 1 }

/-- One step of a BUSY decoder unit. -/
def unitStep (s : State) : State :=
  match s.stage with
  | .read => readStep s
  | .blit => blitStep s

/-- The decoder unit's turn: a step while BUSY, nothing otherwise (60_exceptions.md R118). -/
def unitTurn (s : State) : State :=
  if s.isBusy then unitStep s else s

end Sys2Proof.Machine
end

