-- ==== Sys2Proof/Machine/HostPort.lean ====
section
/-! DEFINITION. What the host does besides issuing commands: reading STATUS, touching memory, waiting, resetting, and the
one thing it may not do, writing STATUS. -/

namespace Sys2Proof.Machine

/-- A descriptor the command port gives no meaning (30_encoding.md R49, R46). -/
def rejectRefusal : Reject → Refusal
  | .reservedCmd => .reservedCmd
  | .fieldTooWide => .fieldTooWide

/-- The host reads STATUS (10_state.md R17, R30). -/
def hostReadStatus (s : State) : State :=
  { s with readData := s.status }

/-- The host reads a byte of memory. A DST byte read while BUSY is any value, drawn afresh (20_memory.md R42); any other
byte of plain memory is what memory holds (R38). -/
def hostReadMem (a : Nat) (s : State) : Host.Outcome State Fault Refusal :=
  if !plainAt s.params a then .refused .notPlainMemory
  else if s.isBusy && s.inDst a then
    .next { s with readData := (Config.freeByte s.draws a).setWidth 32, draws := s.draws + 1 }
  else .next { s with readData := (s.mem.read a).setWidth 32 }

/-- The host writes a byte of memory. Into SRC or DST of the running command, it makes the DST region any value at the
command's end (20_memory.md R43, 70_reset_and_hazards.md R122, R123; log 12). -/
def hostWriteMem (a : Nat) (v : Byte) (s : State) : Host.Outcome State Fault Refusal :=
  if !plainAt s.params a then .refused .notPlainMemory
  else
    .next
      { s with
        mem := s.mem.write a v
        dstLost := s.dstLost || (s.isBusy && (s.inSrc a || s.inDst a)) }

/-- One poll of WAIT (30_encoding.md R64), `rest` being the turns after it: while BUSY the unit takes its next step and
the WAIT stands; once not BUSY, the host has read STATUS and goes on. Log 15. -/
def hostWait (rest : List Turn) (s : State) : State :=
  if s.isBusy then unitStep s else { s with pending := rest, readData := s.status }

end Sys2Proof.Machine
end

