-- ==== Sys2Proof/Machine/Step.lean ====
section
/-! DEFINITION. One step of the machine: the next turn, of the decoder unit or of the host. The unit fetches no code
(20_memory.md R44); an instruction reaches it as a command at the head of the host's turns. -/

namespace Sys2Proof.Machine

/-- One step. With no turn pending the decoder unit moves (70_reset_and_hazards.md R128), and an idle unit stays as it is. -/
def step (s : State) : Host.Outcome State Fault Refusal :=
  match s.pending with
  | [] => .next (unitTurn s)
  | .unit :: rest => .next (unitTurn { s with pending := rest })
  | .host (.command d) :: rest =>
    match decode s.params d with
    | .ok i => exec i { s with pending := rest }
    | .error r => .refused (rejectRefusal r)
  | .host .readStatus :: rest => .next (hostReadStatus { s with pending := rest })
  | .host (.writeStatus _) :: _ => .refused .statusWrite
  | .host (.readMem a) :: rest => hostReadMem a { s with pending := rest }
  | .host (.writeMem a v) :: rest => hostWriteMem a v { s with pending := rest }
  | .host .wait :: rest => .next (hostWait rest s)
  | .host .reset :: rest => .next (State.assertReset { s with pending := rest })

/-- The state in which the host's next turn is to issue the command of an opcode-table word. Log 21. -/
def State.withFetchWord (s : State) (nbits w : Nat) : State :=
  { s with pending := .host (.command (tableDescriptor nbits w)) :: s.pending }

end Sys2Proof.Machine
end

