-- ==== Sys2Proof/Safety.lean ====
section
/-! DEFINITION. The terms claims are made in: what a command's operands are, the host's duties for a launch, the function
a command computes (45_blit_and_commands.md R105), the invariant of the machine, and which states the host cannot tell
apart (10_state.md R30). -/

namespace Sys2Proof

/-! ### A command's operands, whichever of the three it is -/

/-- The variant a command selects (30_encoding.md R47). -/
def Instr.variant : Instr → Variant
  | .decodeBc1 _ _ _ _ _ => .A
  | .decodeBc2 _ _ _ _ _ => .B
  | .decodeBc3 _ _ _ _ _ => .C

/-- DST_BASE. -/
def Instr.dst : Instr → Nat
  | .decodeBc1 dst _ _ _ _ => dst
  | .decodeBc2 dst _ _ _ _ => dst
  | .decodeBc3 dst _ _ _ _ => dst

/-- SRC_BASE. -/
def Instr.src : Instr → Nat
  | .decodeBc1 _ src _ _ _ => src
  | .decodeBc2 _ src _ _ _ => src
  | .decodeBc3 _ src _ _ _ => src

/-- LEN. -/
def Instr.len : Instr → Nat
  | .decodeBc1 _ _ len _ _ => len
  | .decodeBc2 _ _ len _ _ => len
  | .decodeBc3 _ _ len _ _ => len

/-- WIDTH. -/
def Instr.width : Instr → Nat
  | .decodeBc1 _ _ _ width _ => width
  | .decodeBc2 _ _ _ width _ => width
  | .decodeBc3 _ _ _ width _ => width

/-- HEIGHT. -/
def Instr.height : Instr → Nat
  | .decodeBc1 _ _ _ _ height => height
  | .decodeBc2 _ _ _ _ height => height
  | .decodeBc3 _ _ _ _ height => height

namespace Machine

/-- An address lies in the range of n bytes from lo. -/
def InRange (lo n a : Nat) : Prop :=
  lo ≤ a ∧ a < lo + n

/-- The host's duties for the regions of a command that is not of zero size (70_reset_and_hazards.md R125,
20_memory.md R38, R39): neither region passes the top of the address space, every SRC byte is readable and every DST byte
writable plain memory, and no address is in both. -/
structure HostDuties (p : Params) (i : Instr) : Prop where
  srcTop : i.src + i.len ≤ 2 ^ p.addrBits
  dstTop : i.dst + rasterBytes i.width i.height ≤ 2 ^ p.addrBits
  srcPlain : ∀ a, InRange i.src i.len a → ∃ r ∈ p.map, r.readable = true ∧ InRange r.base r.size a
  dstPlain : ∀ a, InRange i.dst (rasterBytes i.width i.height) a →
    ∃ r ∈ p.map, r.writable = true ∧ InRange r.base r.size a
  apart : ∀ a, ¬(InRange i.src i.len a ∧ InRange i.dst (rasterBytes i.width i.height) a)

/-- When the decoder unit accepts a command: it is not BUSY, and the command is of zero size (45_blit_and_commands.md R104)
or the host's duties are met. -/
def Launchable (s : State) (i : Instr) : Prop :=
  s.isBusy = false ∧ (i.width = 0 ∨ i.height = 0 ∨ HostDuties s.params i)

/-- What the latch holds for a command (10_state.md R20). -/
def latchOf (i : Instr) : Latch :=
  { variant := i.variant, width := i.width, height := i.height, len := i.len, srcBase := i.src, dstBase := i.dst }

/-- The next step is the decoder unit's: no turn is pending, the next turn is the unit's, or the host waits while the unit
is BUSY (logs 1 and 15). `rest` is what is pending after that step. -/
def UnitMoves (s : State) (rest : List Turn) : Prop :=
  (s.pending = [] ∧ rest = []) ∨ s.pending = .unit :: rest ∨
    (s.isBusy = true ∧ rest = s.pending ∧ ∃ more, s.pending = .host .wait :: more)

/-! ### DECODE_FN -/

/-- block(bx, by) of an SRC space given by its bytes (30_encoding.md R51). -/
def srcBlock (v : Variant) (src : Nat → Byte) (w col row : Nat) : List Byte :=
  (List.range (Config.blockBytes v)).map fun k => src ((row * gridDim w + col) * Config.blockBytes v + k)

/-- TILE_v of a block (R105): the tile its decoder produces. -/
def tileOfBlock (v : Variant) (blk : List Byte) : Vector Byte 64 :=
  (decodeBlock v blk State.reset.scratch).tile

/-- The DONE case of DECODE_FN (R105): channel c of raster pixel (x, y). -/
def rasterByte (v : Variant) (src : Nat → Byte) (w x y c : Nat) : Byte :=
  (tileOfBlock v (srcBlock v src w (x / 4) (y / 4))).get (Fin.ofNat 64 ((4 * (y % 4) + x % 4) * 4 + c))

/-- The decoder-unit steps a command of this size takes to DONE: two a block, one for an empty grid (log 2). -/
def stepsToDone (w h : Nat) : Nat :=
  if emptyGrid w h then 1 else 2 * (gridDim w * gridDim h)

/-! ### The invariant -/

/-- What holds while a command runs (10_state.md R21, 60_exceptions.md R107): its regions meet the host's duties unless it
is of zero size, the cursor is a block of the grid at its SRC offset, and a decoded block lay within L. For an empty grid
R21's bounds have no solution (log 19). -/
structure State.Running (s : State) : Prop where
  regions : s.latch.width = 0 ∨ s.latch.height = 0 ∨
    regionRefusal s.params s.latch.dstBase s.latch.srcBase s.latch.len s.latch.width s.latch.height = none
  inGrid : emptyGrid s.latch.width s.latch.height = false →
    s.cursor.col < gridDim s.latch.width ∧ s.cursor.row < gridDim s.latch.height
  offset : s.cursor.off =
    (s.cursor.row * gridDim s.latch.width + s.cursor.col) * Config.blockBytes s.latch.variant
  decoded : s.stage = .blit → emptyGrid s.latch.width s.latch.height = false ∧
    s.cursor.off + Config.blockBytes s.latch.variant ≤ s.latch.len

/-- The invariant of the machine. -/
structure State.Inv (s : State) : Prop where
  /-- R7's constraints on the parameters. -/
  params : s.params.wf = true
  /-- STATUS is one of the four words R17 to R19 allow. -/
  status : s.status = 0x00000000#32 ∨ s.status = 0x00000001#32 ∨ s.status = 0x00000002#32 ∨ s.status = 0x00000013#32
  /-- Memory is in canonical form, inside the host address space. -/
  memForm : s.mem.wf = true
  inSpace : ∀ c ∈ s.mem.cells, c.1 < 2 ^ s.params.addrBits
  /-- The next free value is fresh: no lost range has its draw, and draw 0 is the initial contents (log 11). -/
  fresh : 1 ≤ s.draws ∧ ∀ r ∈ s.mem.lost, 1 ≤ r.draw ∧ r.draw < s.draws
  /-- The latch fields fit their registers (R20). -/
  latchFits : operandsFit s.params s.latch.dstBase s.latch.srcBase s.latch.len s.latch.width s.latch.height = true
  /-- While BUSY. -/
  running : s.isBusy = true → s.Running
  /-- While not BUSY, nothing is half done. -/
  quiet : s.isBusy = false → s.stage = .read ∧ s.dstLost = false

/-! ### What the host cannot tell apart -/

/-- Two states that differ at most in hidden state no rule will read before it is written (10_state.md R30,
93_implementation_defined.md U13): the latch and the cursor when not BUSY, the scratch registers unless a decoded tile
waits to be blitted. -/
structure SameToHost (s t : State) : Prop where
  params : s.params = t.params
  pending : s.pending = t.pending
  readData : s.readData = t.readData
  status : s.status = t.status
  stage : s.stage = t.stage
  dstLost : s.dstLost = t.dstLost
  mem : s.mem = t.mem
  draws : s.draws = t.draws
  latch : s.isBusy = true → s.latch = t.latch
  cursor : s.isBusy = true → s.cursor = t.cursor
  tile : s.isBusy = true → s.stage = .blit → s.scratch.tile = t.scratch.tile

/-- The same machine with another number of LANES (00_scope.md R7). -/
def State.withLanes (s : State) (n : Nat) : State :=
  { s with params := { s.params with lanes := n } }

/-- Two outcomes of a step that agree up to a relation on next states. -/
def SameOutcome (R : State → State → Prop) : Host.Outcome State Fault Refusal → Host.Outcome State Fault Refusal → Prop
  | .next s, .next t => R s t
  | .fault a, .fault b => a = b
  | .refused a, .refused b => a = b
  | _, _ => False

end Machine

end Sys2Proof
end

