-- ==== Sys2Proof/Certificates/Slice0/Obligations.lean ====
section
/-! DEFINITION. The statements for the provers, from the numbered rules of spec/. -/

open Sys2Proof Sys2Proof.Machine

/-! ### Encoding -/

/-- 30_encoding.md R48, on words written out: each command's CMD word with some operands, and vectors V-E10 to V-E12. -/
def Obligations.CmdWordsSelectTheirCommands : Prop :=
  decode Params.default ⟨0x00000000#32, 8, 4, 16, 0x1000, 0x2000⟩ = .ok (.decodeBc1 0x2000 0x1000 16 8 4) ∧
  decode Params.default ⟨0x00000001#32, 2, 3, 16, 0x1000, 0x2000⟩ = .ok (.decodeBc2 0x2000 0x1000 16 2 3) ∧
  decode Params.default ⟨0x00000002#32, 5, 6, 64, 0x1000, 0x2000⟩ = .ok (.decodeBc3 0x2000 0x1000 64 5 6) ∧
  decode Params.default ⟨0x00000003#32, 4, 4, 16, 0x1000, 0x2000⟩ = .error .reservedCmd ∧
  decode Params.default ⟨0x00000004#32, 4, 4, 16, 0x1000, 0x2000⟩ = .error .reservedCmd ∧
  decode Params.default ⟨0x80000001#32, 4, 4, 16, 0x1000, 0x2000⟩ = .error .reservedCmd

/-- R48 and R66: three of the 2^32 words are commands, every other is refused as reserved. -/
def Obligations.DecodeCmdSelectsThreeWords : Prop :=
  ∀ cmd : Word,
    decodeCmd cmd =
      if cmd = 0x00000000#32 then .ok .A
      else if cmd = 0x00000001#32 then .ok .B
      else if cmd = 0x00000002#32 then .ok .C
      else .error .reservedCmd

/-- Decoding and encoding agree, both ways, for every command, every operand and every choice of field widths. -/
def Obligations.DecodeEncodeAgree : Prop :=
  (∀ (p : Params) (i : Instr), i.wf p = true → decode p (encode i) = .ok i) ∧
  (∀ (p : Params) (d : Descriptor) (i : Instr), decode p d = .ok i → encode i = d ∧ i.wf p = true)

/-- A step whose next turn issues a command runs what the descriptor decodes to, in the state past that turn. -/
def Obligations.StepRunsDecodedCommand : Prop :=
  ∀ (s : State) (d : Descriptor) (rest : List Turn) (i : Instr),
    s.pending = .host (.command d) :: rest → decode s.params d = .ok i →
      step s = exec i { s with pending := rest }

/-- R49: a command with a reserved CMD word is refused, whatever its other fields. That the ground named is the reserved
word also where another ground holds at once is the model's order of grounds (log 4). -/
def Obligations.ReservedCmdRefused : Prop :=
  ∀ (s : State) (d : Descriptor) (rest : List Turn),
    s.pending = .host (.command d) :: rest →
    (d.cmd.extractLsb' 0 2 = 0b11#2 ∨ d.cmd.extractLsb' 2 30 ≠ 0#30) →
      step s = .refused .reservedCmd

/-! ### The commands: acceptance and refusal -/

/-- The acceptance of R100, for DECODE.BC1, DECODE.BC2 and DECODE.BC3 (`i` ranges over the three): a launchable command
completes, the latch holds its fields (R20), the cursor stands at the first block, ERR_KIND is 0 and STATE is BUSY, and
everything else is unchanged. `stage` and `dstLost` are the model's own (logs 2 and 12). -/
def Obligations.LaunchableCommandBegins : Prop :=
  ∀ (i : Instr) (s : State), s.params.wf = true → Launchable s i →
    exec i s = .next
      { s with
        status := 0x00000001#32
        latch :=
          { variant := i.variant, width := i.width, height := i.height, len := i.len, srcBase := i.src, dstBase := i.dst }
        cursor := { col := 0, row := 0, off := 0 }
        stage := .read
        dstLost := false }

/-- R124: while STATE = BUSY every command is refused. That the ground named is BUSY also where another ground holds at once
is the model's order of grounds (log 4). -/
def Obligations.BusyUnitRefusesCommands : Prop :=
  ∀ (i : Instr) (s : State), s.stateField = 1#2 → exec i s = .refused .busy

/-- R39: a command not of zero size whose regions share an address is refused in every state; in a state that is not BUSY,
with regions that are in order otherwise, it is refused for that reason. -/
def Obligations.OverlappingRegionsRefused : Prop :=
  (∀ (i : Instr) (s : State) (a : Nat), i.width ≠ 0 → i.height ≠ 0 → InRange i.src i.len a →
    InRange i.dst (i.width * i.height * 4) a → ∃ r, exec i s = .refused r) ∧
  (∀ (i : Instr) (s : State) (a : Nat), s.params.wf = true → s.isBusy = false → i.width ≠ 0 → i.height ≠ 0 →
    i.src + i.len ≤ 2 ^ s.params.addrBits →
    i.dst + i.width * i.height * 4 ≤ 2 ^ s.params.addrBits →
    (∀ b, InRange i.src i.len b → ∃ r ∈ s.params.map, r.readable = true ∧ InRange r.base r.size b) →
    (∀ b, InRange i.dst (i.width * i.height * 4) b → ∃ r ∈ s.params.map, r.writable = true ∧ InRange r.base r.size b) →
    InRange i.src i.len a → InRange i.dst (i.width * i.height * 4) a →
      exec i s = .refused .overlap)

/-- R125: a command is refused if a region passes the top of the address space or is not all plain memory of the needed
kind, except a command of zero size. -/
def Obligations.UnfitRegionRefused : Prop :=
  (∀ (i : Instr) (s : State), i.width ≠ 0 → i.height ≠ 0 →
    (2 ^ s.params.addrBits < i.src + i.len ∨
      2 ^ s.params.addrBits < i.dst + i.width * i.height * 4 ∨
      (∃ a, InRange i.src i.len a ∧ ∀ r ∈ s.params.map, r.readable = true → ¬InRange r.base r.size a) ∨
      (∃ a, InRange i.dst (i.width * i.height * 4) a ∧
        ∀ r ∈ s.params.map, r.writable = true → ¬InRange r.base r.size a)) →
      ∃ r, exec i s = .refused r) ∧
  (∀ (i : Instr) (s : State), s.isBusy = false → i.width = 0 ∨ i.height = 0 → ∃ t, exec i s = .next t)

/-- R104: a command of zero size is accepted whatever its bases and length, and the unit's next step is DONE with memory
as it was. Nothing of memory is read: with any other memory both states are the same but for that memory. That `exec` is
the acceptance is log 3, that the very next unit step is DONE is log 19; `readData` is log 16. -/
def Obligations.ZeroSizeCommandIsDone : Prop :=
  ∀ (i : Instr) (s : State), s.isBusy = false → i.width = 0 ∨ i.height = 0 →
    ∃ t, exec i s = .next t ∧ t.status = 0x00000001#32 ∧
      (∀ m : Memory, exec i { s with mem := m } = .next { t with mem := m }) ∧
      ∀ rest, UnitMoves t rest →
        ∃ u, step t = .next u ∧ u.status = 0x00000002#32 ∧ u.mem = s.mem ∧ u.params = s.params ∧ u.pending = rest ∧
          u.readData = s.readData ∧
          ∀ m : Memory, step { t with mem := m } = .next { u with mem := m }

/-- R115: ERROR is left only by an accepted command, which makes STATUS read BUSY with ERR_KIND 0, or by reset; and a
command accepted in ERROR runs as one accepted in IDLE. -/
def Obligations.ErrorLeftByCommandOrReset : Prop :=
  (∀ s t : State, s.status = 0x00000013#32 → step s = .next t →
    t.status = 0x00000013#32 ∨
    (∃ d rest, s.pending = .host (.command d) :: rest ∧ t.status = 0x00000001#32) ∨
    (∃ rest, s.pending = .host .reset :: rest ∧ t.status = 0x00000000#32)) ∧
  (∀ (i : Instr) (s : State), s.status = 0x00000013#32 → exec i s = exec i { s with status := 0x00000000#32 })

/-! ### STATUS and reset -/

/-- R29, R119: right after reset STATUS reads 0 and a command is accepted at once: a launchable command of any of the three
kinds completes from the reset state. That its memory lists no byte is the model's choice (log 6). -/
def Obligations.ResetStateIsIdle : Prop :=
  State.reset.status = 0x00000000#32 ∧ State.reset.mem.cells = [] ∧ State.reset.mem.lost = [] ∧
    ∀ i : Instr, i.width = 0 ∨ i.height = 0 ∨ HostDuties State.reset.params i →
      ∃ t, exec i State.reset = .next t ∧ t.status = 0x00000001#32

/-- R119, R120: reset makes STATUS read 0 whatever it was; every byte of memory is unchanged but those of a running
command's DST, which become any value (a free byte of a fresh draw, log 11), and no later unit turn changes anything. That
the turns still to come and the host's read data are kept is the model's (logs 14 and 16). -/
def Obligations.ResetAbortsTheCommand : Prop :=
  ∀ (s : State) (rest : List Turn), s.pending = .host .reset :: rest →
    ∃ t, step s = .next t ∧ t.status = 0x00000000#32 ∧ t.pending = rest ∧ t.params = s.params ∧
      t.readData = s.readData ∧
      (∀ a, s.isBusy = false ∨ ¬InRange s.latch.dstBase (s.latch.width * s.latch.height * 4) a →
        t.mem.read a = s.mem.read a) ∧
      (∀ a, s.isBusy = true → InRange s.latch.dstBase (s.latch.width * s.latch.height * 4) a →
        t.mem.read a = Config.freeByte s.draws a) ∧
      unitTurn t = t

/-- R18: the table of STATUS.STATE's transitions, with the event of each, for every step of every state. -/
def Obligations.StatusTransitionsOnlyAsListed : Prop :=
  ∀ s t : State, step s = .next t →
    t.status = s.status ∨
    (∃ rest, s.pending = .host .reset :: rest ∧ t.stateField = 0#2) ∨
    (s.stateField ≠ 1#2 ∧ t.stateField = 1#2 ∧
      ∃ d rest i, s.pending = .host (.command d) :: rest ∧ decode s.params d = .ok i ∧ t.latch = latchOf i) ∨
    (s.stateField = 1#2 ∧ t.stateField = 2#2 ∧
      (emptyGrid s.latch.width s.latch.height = true ∨
        s.stage = .blit ∧ s.cursor.isLast s.latch.width s.latch.height = true)) ∨
    (s.stateField = 1#2 ∧ t.stateField = 3#2 ∧ s.stage = .read ∧
      s.latch.len < s.cursor.off + Config.blockBytes s.latch.variant)

/-- R17, R19: in every state of the invariant, ERR_KIND is 1 exactly while STATE = ERROR, else 0, and the reserved bits of
STATUS read 0. -/
def Obligations.ErrKindExactlyInError : Prop :=
  ∀ s : State, s.Inv →
    (s.errKindField = 1#4 ↔ s.stateField = 3#2) ∧ (s.errKindField = 0#4 ∨ s.errKindField = 1#4) ∧
      s.status.extractLsb' 2 2 = 0#2 ∧ s.status.extractLsb' 8 24 = 0#24

/-- R17: a host write to STATUS is refused; a host read of STATUS returns it and changes nothing else. -/
def Obligations.HostAccessToStatus : Prop :=
  (∀ (s : State) (v : Word) (rest : List Turn), s.pending = .host (.writeStatus v) :: rest →
    step s = .refused .statusWrite) ∧
  (∀ (s : State) (rest : List Turn), s.pending = .host .readStatus :: rest →
    step s = .next { s with pending := rest, readData := s.status })

/-! ### The invariant -/

/-- The reset state satisfies the invariant. -/
def Obligations.ResetStateInInvariant : Prop :=
  State.reset.Inv

/-- Every step from a state of the invariant, whatever the turn, leads to one. -/
def Obligations.StepKeepsInvariant : Prop :=
  ∀ s t : State, s.Inv → step s = .next t → t.Inv

/-! ### The sequencer -/

/-- R107, R35: the step that decodes a block depends on memory only through the bytes of that block that lie below L. -/
def Obligations.OnlyBytesBelowLenAreRead : Prop :=
  ∀ (s : State) (m : Memory), s.stage = .read →
    (∀ o, s.cursor.off ≤ o → o < s.cursor.off + Config.blockBytes s.latch.variant → o < s.latch.len →
      m.read (s.latch.srcBase + o) = s.mem.read (s.latch.srcBase + o)) →
    (unitStep { s with mem := m }).status = (unitStep s).status ∧
      (unitStep { s with mem := m }).scratch = (unitStep s).scratch ∧
      (unitStep { s with mem := m }).stage = (unitStep s).stage

/-- R108: what raising InputTooShort does, at the first block that passes L, whichever turn the unit moves in (logs 1 and
15). That DST reads as the free bytes of a fresh draw is how the model says `any value` (log 11); `readData` is log 16. -/
def Obligations.ShortBlockRaisesInputTooShort : Prop :=
  ∀ (s : State) (rest : List Turn), s.isBusy = true → s.stage = .read → UnitMoves s rest →
    s.latch.width ≠ 0 → s.latch.height ≠ 0 → s.latch.len < s.cursor.off + Config.blockBytes s.latch.variant →
    ∃ t, step s = .next t ∧ t.status = 0x00000013#32 ∧
      (∀ rest', UnitMoves t rest' → step t = .next { t with pending := rest' }) ∧
      (∀ a, ¬InRange s.latch.dstBase (s.latch.width * s.latch.height * 4) a → t.mem.read a = s.mem.read a) ∧
      (∀ a, InRange s.latch.dstBase (s.latch.width * s.latch.height * 4) a →
        t.mem.read a = Config.freeByte s.draws a) ∧
      (s.Inv → ∀ k, k < s.latch.len → t.mem.read (s.latch.srcBase + k) = s.mem.read (s.latch.srcBase + k)) ∧
      t.pending = rest ∧ t.params = s.params ∧ t.readData = s.readData

/-- R97: blocks are visited in row-major order. `gridBlocks` lists the block (bx, by) at position by*bcx + bx; a command
starts at position 0; after the blit of a block that is not the last the cursor is at the next position, its OFF advanced
by exactly BB; and in every BUSY state of the invariant OFF is that of the cursor's block. The turns the unit moves in (logs
1 and 15), one blit step a block with `stage` before it (log 2), and the start at 0, 0, 0 also for an empty grid, with `exec`
as the acceptance (logs 19 and 3), are the model's. -/
def Obligations.BlocksVisitedInRowMajorOrder : Prop :=
  (∀ w h col row, col < gridDim w → row < gridDim h →
    (gridBlocks w h)[row * gridDim w + col]? = some (col, row)) ∧
  (∀ (i : Instr) (s t : State), exec i s = .next t → t.cursor = { col := 0, row := 0, off := 0 }) ∧
  (∀ s : State, s.Inv → s.isBusy = true →
    s.cursor.off =
      (s.cursor.row * gridDim s.latch.width + s.cursor.col) * Config.blockBytes s.latch.variant) ∧
  (∀ (s : State) (rest : List Turn), s.isBusy = true → s.stage = .blit → UnitMoves s rest →
    s.cursor.col < gridDim s.latch.width → s.cursor.row < gridDim s.latch.height →
    s.cursor.row * gridDim s.latch.width + s.cursor.col + 1 < gridDim s.latch.width * gridDim s.latch.height →
    ∃ t, step s = .next t ∧ t.status = s.status ∧ t.latch = s.latch ∧
      t.cursor.col < gridDim s.latch.width ∧ t.cursor.row < gridDim s.latch.height ∧
      t.cursor.row * gridDim s.latch.width + t.cursor.col =
        s.cursor.row * gridDim s.latch.width + s.cursor.col + 1 ∧
      t.cursor.off = s.cursor.off + Config.blockBytes s.latch.variant)

/-- R26, R27, R36: no turn of the decoder unit (none pending, its own, or under WAIT: logs 1 and 15) changes a byte outside
the running command's DST region, so none of SRC; and a unit that is not BUSY changes nothing but that its turn is past. -/
def Obligations.UnitWritesOnlyDst : Prop :=
  ∀ (s : State) (rest : List Turn), s.Inv → UnitMoves s rest →
    ∃ t, step s = .next t ∧ t.pending = rest ∧
      (s.isBusy = false → t = { s with pending := rest }) ∧
      (∀ a, ¬InRange s.latch.dstBase (s.latch.width * s.latch.height * 4) a → t.mem.read a = s.mem.read a) ∧
      (s.isBusy = true → s.latch.width ≠ 0 → s.latch.height ≠ 0 →
        ∀ k, k < s.latch.len → t.mem.read (s.latch.srcBase + k) = s.mem.read (s.latch.srcBase + k))

/-- R20: the latch holds what the command was issued with until the command ends. -/
def Obligations.LatchHeldWhileBusy : Prop :=
  (∀ (i : Instr) (s t : State), exec i s = .next t →
    t.latch = { variant := i.variant, width := i.width, height := i.height, len := i.len,
                srcBase := i.src, dstBase := i.dst }) ∧
  (∀ s t : State, s.isBusy = true → step s = .next t → t.isBusy = true → t.latch = s.latch)

/-- The DONE case of DECODE_FN (R105), the content of R101 to R103: from any state in which a command is launchable and
the host then leaves the unit alone, with L >= N, the command completes, and after two unit steps a block (one for an
empty grid) STATUS reads DONE, every raster byte is the one DECODE_FN gives for the SRC bytes at acceptance, and every
byte outside DST is unchanged. The number of steps is the model's (logs 2 and 19), and so is that `exec` is the
acceptance (log 3); `readData` is log 16. -/
def Obligations.DecodeReachesDoneWithRaster : Prop :=
  ∀ (i : Instr) (s : State), s.params.wf = true → Launchable s i → s.pending = [] →
    requiredLen i.variant i.width i.height ≤ i.len →
    ∃ t u, exec i s = .next t ∧
      Host.Core.run Sys2Proof.core (stepsToDone i.width i.height) t = .next u ∧
      u.status = 0x00000002#32 ∧
      (∀ x y c, x < i.width → y < i.height → c < 4 →
        u.mem.read (i.dst + ((y * i.width + x) * 4 + c)) =
          rasterByte i.variant (fun k => s.mem.read (i.src + k)) i.width x y c) ∧
      (∀ a, ¬InRange i.dst (i.width * i.height * 4) a → u.mem.read a = s.mem.read a) ∧
      u.params = s.params ∧ u.pending = [] ∧ u.readData = s.readData

/-- The ERROR case of DECODE_FN (R105, R106, R107): with L < N the command is still BUSY, about to read block number L div
BB at offset (L div BB)*BB, when the whole blocks before it are done, and the unit's next step is ERROR with ERR_KIND = 1,
with every byte outside DST unchanged. Two steps a block, and the check at each block, are the model's (log 2), and so is
that `exec` is the acceptance (log 3); `stage` is log 2 and `readData` log 16. -/
def Obligations.ShortInputReachesError : Prop :=
  ∀ (i : Instr) (s : State), s.params.wf = true → Launchable s i → s.pending = [] →
    i.len < requiredLen i.variant i.width i.height →
    ∃ t v u, exec i s = .next t ∧
      Host.Core.run Sys2Proof.core (2 * (i.len / Config.blockBytes i.variant)) t = .next v ∧
      v.status = 0x00000001#32 ∧ v.stage = .read ∧
      v.cursor.row * gridDim i.width + v.cursor.col = i.len / Config.blockBytes i.variant ∧
      v.cursor.off = i.len / Config.blockBytes i.variant * Config.blockBytes i.variant ∧
      step v = .next u ∧ u.status = 0x00000013#32 ∧
      (∀ a, ¬InRange i.dst (i.width * i.height * 4) a → u.mem.read a = s.mem.read a) ∧
      u.params = s.params ∧ u.pending = [] ∧ u.readData = s.readData

/-- R128: from any BUSY state of the invariant, a unit left to itself is DONE or in ERROR after finitely many steps. The
bound, two steps a block of the grid (one for an empty grid), is the model's (logs 2 and 19): R127 gives none. -/
def Obligations.BusyEndsInBoundedSteps : Prop :=
  ∀ s : State, s.Inv → s.isBusy = true → s.pending = [] →
    ∃ n t, n ≤ stepsToDone s.latch.width s.latch.height ∧ Host.Core.run Sys2Proof.core n s = .next t ∧
      (t.status = 0x00000002#32 ∨ t.status = 0x00000013#32)

/-- R64: WAIT. In a state that is not BUSY it ends at once, the host having read STATUS; while BUSY the unit takes its step
and the WAIT stands; and from a BUSY state of the invariant it ends, with the host having read a STATUS that is not BUSY.
WAIT as one turn under which the unit moves is the model's (log 15), and so are the bound on the steps (logs 2 and 19) and
`readData` (log 16). -/
def Obligations.WaitReturnsFinalStatus : Prop :=
  (∀ (s : State) (rest : List Turn), s.isBusy = false → s.pending = .host .wait :: rest →
    step s = .next { s with pending := rest, readData := s.status }) ∧
  (∀ (s : State) (rest : List Turn), s.isBusy = true → s.pending = .host .wait :: rest →
    ∃ t, step s = .next t ∧ t.pending = s.pending ∧ t.readData = s.readData ∧
      step { s with pending := [] } = .next { t with pending := [] }) ∧
  (∀ (s : State) (rest : List Turn), s.Inv → s.isBusy = true → s.pending = .host .wait :: rest →
    ∃ n t, n ≤ stepsToDone s.latch.width s.latch.height + 1 ∧ Host.Core.run Sys2Proof.core n s = .next t ∧
      t.pending = rest ∧ t.readData = t.status ∧ (t.status = 0x00000002#32 ∨ t.status = 0x00000013#32))

/-! ### What cannot influence what -/

/-- R15, R43: no content of memory, so no block, influences STATUS or the sequencing: with any other memory the step answers
the same, up to memory, what the host reads from it, and the scratch registers. -/
def Obligations.MemoryNeverSteersTheUnit : Prop :=
  ∀ (s t : State) (m : Memory), step s = .next t →
    ∃ t', step { s with mem := m } = .next t' ∧ t'.status = t.status ∧ t'.stage = t.stage ∧ t'.cursor = t.cursor ∧
      t'.latch = t.latch ∧ t'.pending = t.pending ∧ t'.dstLost = t.dstLost ∧ t'.draws = t.draws

/-- R30: hidden state is never observed. Two states the host cannot tell apart are stepped alike: the same refusal, or next
states the host cannot tell apart. -/
def Obligations.HiddenStateNeverObserved : Prop :=
  ∀ s t : State, SameToHost s t → SameOutcome SameToHost (step s) (step t)

/-- R7, R117: the number of LANES is not observable: with any other number every step answers the same. -/
def Obligations.LanesNotObservable : Prop :=
  ∀ (s : State) (n : Nat),
    SameOutcome (fun t t' => t' = t.withLanes n) (step s) (step (s.withLanes n))

/-! ### The host and memory -/

/-- 00_scope.md R10, 20_memory.md R38: a written byte reads as written and every other byte as before; a lost range reads as
the free bytes of its draw and every other byte as before; and both keep the canonical form. -/
def Obligations.MemoryOperationsRoundTrip : Prop :=
  (∀ (m : Memory) (a b : Nat) (v : Byte), (m.write a v).read b = if b = a then v else m.read b) ∧
  (∀ (m : Memory) (base size draw a : Nat),
    (m.lose base size draw).read a = if base ≤ a ∧ a < base + size then Config.freeByte draw a else m.read a) ∧
  (∀ (m : Memory) (a : Nat) (v : Byte), m.wf = true → (m.write a v).wf = true) ∧
  (∀ (m : Memory) (base size draw : Nat), m.wf = true → (m.lose base size draw).wf = true)

/-- A host write to plain memory stores the byte, and is noted when it lands in SRC or DST of a running command (R43, R123);
nothing else changes. The note, `dstLost`, is the model's own (log 12). A write to any other address is refused (R38,
log 20). -/
def Obligations.HostWriteStoresOneByte : Prop :=
  (∀ (s : State) (a : Nat) (v : Byte) (rest : List Turn), s.pending = .host (.writeMem a v) :: rest →
    a < 2 ^ s.params.addrBits → (∃ r ∈ s.params.map, InRange r.base r.size a) →
    ∃ t, step s = .next t ∧ (∀ b, t.mem.read b = if b = a then v else s.mem.read b) ∧
      (t.dstLost = true ↔ s.dstLost = true ∨
        s.isBusy = true ∧ (InRange s.latch.srcBase s.latch.len a ∨
          InRange s.latch.dstBase (s.latch.width * s.latch.height * 4) a)) ∧
      t.pending = rest ∧ t.status = s.status ∧ t.latch = s.latch ∧ t.cursor = s.cursor ∧ t.scratch = s.scratch ∧
      t.stage = s.stage ∧ t.readData = s.readData ∧ t.draws = s.draws ∧ t.params = s.params) ∧
  (∀ (s : State) (a : Nat) (v : Byte) (rest : List Turn), s.pending = .host (.writeMem a v) :: rest →
    (2 ^ s.params.addrBits ≤ a ∨ ∀ r ∈ s.params.map, ¬InRange r.base r.size a) →
    step s = .refused .notPlainMemory)

/-- R43, R123: if the host wrote SRC or DST while the command ran, then when it reaches DONE every byte of its DST region is
any value (a free byte of a fresh draw), and every other byte is unchanged, whichever turn the unit moves in (logs 1, 11,
12 and 15). -/
def Obligations.InterferedCommandLosesDst : Prop :=
  ∀ (s t : State) (rest : List Turn), s.isBusy = true → UnitMoves s rest → s.dstLost = true →
    s.cursor.col < gridDim s.latch.width → step s = .next t → t.status = 0x00000002#32 →
    (∀ a, InRange s.latch.dstBase (s.latch.width * s.latch.height * 4) a →
      t.mem.read a = Config.freeByte s.draws a) ∧
    (∀ a, ¬InRange s.latch.dstBase (s.latch.width * s.latch.height * 4) a → t.mem.read a = s.mem.read a)

/-- R42: while STATE = BUSY a host read of a DST byte returns any value: a free byte of a fresh draw. Any other byte of plain
memory reads as memory holds it. Neither changes memory, STATUS or the command. `readData` and `draws` are the model's own
(logs 11, 13 and 16). A read of any other address is refused (R38, log 20). -/
def Obligations.HostReadReturnsByte : Prop :=
  (∀ (s : State) (a : Nat) (rest : List Turn), s.pending = .host (.readMem a) :: rest →
    a < 2 ^ s.params.addrBits → (∃ r ∈ s.params.map, InRange r.base r.size a) →
    ∃ t, step s = .next t ∧
      (s.isBusy = true ∧ InRange s.latch.dstBase (s.latch.width * s.latch.height * 4) a →
        t.readData = (Config.freeByte s.draws a).setWidth 32 ∧ t.draws = s.draws + 1) ∧
      (¬(s.isBusy = true ∧ InRange s.latch.dstBase (s.latch.width * s.latch.height * 4) a) →
        t.readData = (s.mem.read a).setWidth 32 ∧ t.draws = s.draws) ∧
      t.mem = s.mem ∧ t.status = s.status ∧ t.latch = s.latch ∧ t.cursor = s.cursor ∧ t.scratch = s.scratch ∧
      t.stage = s.stage ∧ t.dstLost = s.dstLost ∧ t.pending = rest ∧ t.params = s.params) ∧
  (∀ (s : State) (a : Nat) (rest : List Turn), s.pending = .host (.readMem a) :: rest →
    (2 ^ s.params.addrBits ≤ a ∨ ∀ r ∈ s.params.map, ¬InRange r.base r.size a) →
    step s = .refused .notPlainMemory)

/-! ### Color codec -/

/-- R67: each channel is its field left-aligned in 8 bits with its top bits replicated below, on naturals. -/
def Obligations.Unpack565ReplicatesTopBits : Prop :=
  ∀ w : Half,
    (unpack565 w).r.toNat = w.toNat / 2048 * 8 + w.toNat / 2048 / 4 ∧
    (unpack565 w).g.toNat = w.toNat / 32 % 64 * 4 + w.toNat / 32 % 64 / 16 ∧
    (unpack565 w).b.toNat = w.toNat % 32 * 8 + w.toNat % 32 / 4

/-- R68: the packed word. -/
def Obligations.PackRgbaLaysOutChannels : Prop :=
  ∀ r g b a : Byte, (packRgba r g b a).toNat = b.toNat + g.toNat * 2 ^ 8 + r.toNat * 2 ^ 16 + a.toNat * 2 ^ 24

/-- R70: PACKRGBA and UNPACKRGBA are inverses. -/
def Obligations.PackUnpackInverse : Prop :=
  (∀ r g b a : Byte, unpackRgba (packRgba r g b a) = { r := r, g := g, b := b, a := a }) ∧
  (∀ u : Word, packRgba (unpackRgba u).r (unpackRgba u).g (unpackRgba u).b (unpackRgba u).a = u)

/-! ### Palette -/

/-- R73: the four entries of PALETTE_A. -/
def Obligations.PaletteAEntries : Prop :=
  ∀ (c0 c1 : Half),
    let e := fun k => unpackRgba ((paletteA c0 c1).get k)
    let x := unpack565 c0
    let y := unpack565 c1
    e 0 = ⟨x.r, x.g, x.b, 255#8⟩ ∧ e 1 = ⟨y.r, y.g, y.b, 255#8⟩ ∧
    (c1.toNat < c0.toNat →
      (e 2).r.toNat = (2 * x.r.toNat + y.r.toNat) / 3 ∧ (e 2).g.toNat = (2 * x.g.toNat + y.g.toNat) / 3 ∧
      (e 2).b.toNat = (2 * x.b.toNat + y.b.toNat) / 3 ∧ (e 2).a = 255#8 ∧
      (e 3).r.toNat = (x.r.toNat + 2 * y.r.toNat) / 3 ∧ (e 3).g.toNat = (x.g.toNat + 2 * y.g.toNat) / 3 ∧
      (e 3).b.toNat = (x.b.toNat + 2 * y.b.toNat) / 3 ∧ (e 3).a = 255#8) ∧
    (c0.toNat ≤ c1.toNat →
      (e 2).r.toNat = (x.r.toNat + y.r.toNat) / 2 ∧ (e 2).g.toNat = (x.g.toNat + y.g.toNat) / 2 ∧
      (e 2).b.toNat = (x.b.toNat + y.b.toNat) / 2 ∧ (e 2).a = 255#8 ∧ e 3 = ⟨0#8, 0#8, 0#8, 0#8⟩)

/-- R74: the four entries of PALETTE_B; entry 2 follows the comparison, entry 3 does not. -/
def Obligations.PaletteBEntries : Prop :=
  ∀ (c0 c1 : Half),
    let e := fun k => unpackRgba ((paletteB c0 c1).get k)
    let x := unpack565 c0
    let y := unpack565 c1
    e 0 = ⟨x.r, x.g, x.b, 0#8⟩ ∧ e 1 = ⟨y.r, y.g, y.b, 0#8⟩ ∧
    (c1.toNat < c0.toNat →
      (e 2).r.toNat = (2 * x.r.toNat + y.r.toNat) / 3 ∧ (e 2).g.toNat = (2 * x.g.toNat + y.g.toNat) / 3 ∧
      (e 2).b.toNat = (2 * x.b.toNat + y.b.toNat) / 3) ∧
    (c0.toNat ≤ c1.toNat →
      (e 2).r.toNat = (x.r.toNat + y.r.toNat) / 2 ∧ (e 2).g.toNat = (x.g.toNat + y.g.toNat) / 2 ∧
      (e 2).b.toNat = (x.b.toNat + y.b.toNat) / 2) ∧
    (e 2).a = 0#8 ∧
    (e 3).r.toNat = (x.r.toNat + 2 * y.r.toNat) / 3 ∧ (e 3).g.toNat = (x.g.toNat + 2 * y.g.toNat) / 3 ∧
    (e 3).b.toNat = (x.b.toNat + 2 * y.b.toNat) / 3 ∧ (e 3).a = 0#8

/-- R75: the four entries of PALETTE_C, whatever the order of c0 and c1. -/
def Obligations.PaletteCEntries : Prop :=
  ∀ (c0 c1 : Half),
    let e := fun k => unpackRgba ((paletteC c0 c1).get k)
    let x := unpack565 c0
    let y := unpack565 c1
    e 0 = ⟨x.r, x.g, x.b, 0#8⟩ ∧ e 1 = ⟨y.r, y.g, y.b, 0#8⟩ ∧
    (e 2).r.toNat = (2 * x.r.toNat + y.r.toNat) / 3 ∧ (e 2).g.toNat = (2 * x.g.toNat + y.g.toNat) / 3 ∧
    (e 2).b.toNat = (2 * x.b.toNat + y.b.toNat) / 3 ∧ (e 2).a = 0#8 ∧
    (e 3).r.toNat = (x.r.toNat + 2 * y.r.toNat) / 3 ∧ (e 3).g.toNat = (x.g.toNat + 2 * y.g.toNat) / 3 ∧
    (e 3).b.toNat = (x.b.toNat + 2 * y.b.toNat) / 3 ∧ (e 3).a = 0#8

/-- R76: the interpolants are exact on naturals, with no overflow, and lie between their endpoints. -/
def Obligations.InterpolantsExactAndBetween : Prop :=
  ∀ x0 x1 : Byte,
    (w23 x0 x1).toNat = (2 * x0.toNat + x1.toNat) / 3 ∧ (w13 x0 x1).toNat = (x0.toNat + 2 * x1.toNat) / 3 ∧
    (avg x0 x1).toNat = (x0.toNat + x1.toNat) / 2 ∧
    ∀ f ∈ [w23, w13, avg],
      min x0.toNat x1.toNat ≤ (f x0 x1).toNat ∧ (f x0 x1).toNat ≤ max x0.toNat x1.toNat

/-- R77: the alpha byte of every entry PALETTE_B or PALETTE_C builds is 0. -/
def Obligations.PaletteBCAlphaZero : Prop :=
  ∀ (c0 c1 : Half) (k : Fin 4),
    ((paletteB c0 c1).get k).extractLsb' 24 8 = 0#8 ∧ ((paletteC c0 c1).get k).extractLsb' 24 8 = 0#8

/-! ### Alpha tables -/

/-- R62, R79: the alpha of pixel p of a variant B block is 17 times the nibble p of the block: the low nibble of byte p/2
when p is even, its high nibble when p is odd. -/
def Obligations.AlphaTableBExpandsNibbles : Prop :=
  ∀ (blk : List Byte) (p : Fin 16), 8 ≤ blk.length →
    ((alphaTableB blk).get p).toNat =
      17 * (if p.val % 2 = 0 then (blk.getD (p.val / 2) 0#8).toNat % 16 else (blk.getD (p.val / 2) 0#8).toNat / 16)

/-- R80: the eight entries of ALPHA_TABLE_C. -/
def Obligations.AlphaTableCEntries : Prop :=
  ∀ a0 a1 : Byte,
    (alphaTableC a0 a1).get 0 = a0 ∧ (alphaTableC a0 a1).get 1 = a1 ∧
    (a1.toNat < a0.toNat → ∀ k : Nat, 1 ≤ k → k ≤ 6 →
      ((alphaTableC a0 a1).get (Fin.ofNat 8 (k + 1))).toNat = (a0.toNat * (7 - k) + a1.toNat * k) / 7) ∧
    (a0.toNat ≤ a1.toNat →
      (∀ k : Nat, 1 ≤ k → k ≤ 4 →
        ((alphaTableC a0 a1).get (Fin.ofNat 8 (k + 1))).toNat = (a0.toNat * (5 - k) + a1.toNat * k) / 5) ∧
      (alphaTableC a0 a1).get 6 = 0#8 ∧ (alphaTableC a0 a1).get 7 = 255#8)

/-- R82, and R81's bound: entries 0 and 1 are the endpoints, the gradient runs one way, and the interpolated entries lie
between the endpoints. -/
def Obligations.AlphaTableCMonotone : Prop :=
  ∀ a0 a1 : Byte,
    let t := fun k => ((alphaTableC a0 a1).get (Fin.ofNat 8 k)).toNat
    t 0 = a0.toNat ∧ t 1 = a1.toNat ∧
    (a1.toNat < a0.toNat → (∀ k, 2 ≤ k → k ≤ 6 → t (k + 1) ≤ t k) ∧
      ∀ k, 2 ≤ k → k ≤ 7 → a1.toNat ≤ t k ∧ t k ≤ a0.toNat) ∧
    (a0.toNat ≤ a1.toNat → (∀ k, 2 ≤ k → k ≤ 4 → t k ≤ t (k + 1)) ∧
      ∀ k, 2 ≤ k → k ≤ 5 → a0.toNat ≤ t k ∧ t k ≤ a1.toNat)

/-! ### Byte order and index fields -/

/-- R52: LE weighs byte k by 2^(8k), and n bytes give a natural below 2^(8n). -/
def Obligations.LittleEndianWeighsBytes : Prop :=
  ∀ bs : List Byte,
    littleEndian bs = ((List.range bs.length).map fun k => (bs.getD k 0#8).toNat * 2 ^ (8 * k)).sum ∧
      littleEndian bs < 2 ^ (8 * bs.length)

/-- R31: a 16-bit field of a block is little-endian, wherever it stands: c0, c1 (R53 to R55) and the variant B alpha words;
so are the 32-bit color index word and the 48-bit alpha index word. A one-byte field (a0, a1, R55) is the byte itself. -/
def Obligations.BlockFieldsAreLittleEndian : Prop :=
  (∀ (blk : List Byte) (i : Nat), i + 2 ≤ blk.length →
    (half blk i).toNat = (blk.getD i 0#8).toNat + (blk.getD (i + 1) 0#8).toNat * 2 ^ 8) ∧
  (∀ (blk : List Byte) (i : Nat), i + 4 ≤ blk.length →
    (colorWord blk i).toNat =
      (blk.getD i 0#8).toNat + (blk.getD (i + 1) 0#8).toNat * 2 ^ 8 + (blk.getD (i + 2) 0#8).toNat * 2 ^ 16 +
        (blk.getD (i + 3) 0#8).toNat * 2 ^ 24) ∧
  (∀ blk : List Byte, 8 ≤ blk.length →
    (alphaWord blk).toNat =
      ((List.range 6).map fun k => (blk.getD (2 + k) 0#8).toNat * 2 ^ (8 * k)).sum) ∧
  (∀ (blk : List Byte) (i : Nat), i < blk.length → byteAt blk i = blk.getD i 0#8)

/-- R60: the color index of pixel p is the two bits at 2*(p mod 4) of the block byte that holds its row, for CIDX at byte 4
(variant A) or byte 12 (variants B and C). -/
def Obligations.ColorIndexFromBlockByte : Prop :=
  ∀ (blk : List Byte) (i p : Nat), (i = 4 ∨ i = 12) → i + 4 ≤ blk.length → p < 16 →
    (colorIndex (colorWord blk i) p).val = (blk.getD (i + p / 4) 0#8).toNat / 2 ^ (2 * (p % 4)) % 4

/-- R61: the alpha index of pixel p of a variant C block is the three bits at position 3p of the bytes 2 to 7, joined low
byte first where they straddle two bytes. -/
def Obligations.AlphaIndexFromBlockBytes : Prop :=
  ∀ (blk : List Byte) (p : Nat), 16 = blk.length → p < 16 →
    (alphaIndex (alphaWord blk) p).val =
      ((blk.getD (2 + 3 * p / 8) 0#8).toNat + 256 * (blk.getD (3 + 3 * p / 8) 0#8).toNat) / 2 ^ (3 * p % 8) % 8

/-! ### Block decoders -/

/-- R89 (with R88): every tile byte of DECODE_BLOCK_A, and the registers it writes; it leaves ALPHA_B, ALPHA_C and AIDX. -/
def Obligations.DecodeBlockAWritesTile : Prop :=
  ∀ (blk : List Byte) (sc : Scratch),
    let out := decodeBlockA blk sc
    out.pal = paletteA (half blk 0) (half blk 2) ∧ out.cidx = colorWord blk 4 ∧
    (∀ p c, p < 16 → c < 4 →
      out.tile.get (Fin.ofNat 64 (4 * p + c)) =
        (unpackRgba (out.pal.get (colorIndex out.cidx p))).channel c) ∧
    out.alphaB = sc.alphaB ∧ out.alphaC = sc.alphaC ∧ out.aidx = sc.aidx

/-- R90, R92: in DECODE_BLOCK_B a pixel takes R, G, B from its palette entry and A from ALPHA_B; ALPHA_C and AIDX are
left. -/
def Obligations.DecodeBlockBWritesTile : Prop :=
  ∀ (blk : List Byte) (sc : Scratch),
    let out := decodeBlockB blk sc
    out.alphaB = alphaTableB blk ∧ out.pal = paletteB (half blk 8) (half blk 10) ∧ out.cidx = colorWord blk 12 ∧
    (∀ p, p < 16 →
      let e := unpackRgba (out.pal.get (colorIndex out.cidx p))
      out.tile.get (Fin.ofNat 64 (4 * p)) = e.r ∧ out.tile.get (Fin.ofNat 64 (4 * p + 1)) = e.g ∧
      out.tile.get (Fin.ofNat 64 (4 * p + 2)) = e.b ∧
      out.tile.get (Fin.ofNat 64 (4 * p + 3)) = out.alphaB.get (Fin.ofNat 16 p)) ∧
    out.alphaC = sc.alphaC ∧ out.aidx = sc.aidx

/-- R91, R92: in DECODE_BLOCK_C a pixel takes R, G, B from its palette entry and A from the ALPHA_C entry of its own alpha
index; ALPHA_B is left. -/
def Obligations.DecodeBlockCWritesTile : Prop :=
  ∀ (blk : List Byte) (sc : Scratch),
    let out := decodeBlockC blk sc
    out.alphaC = alphaTableC (byteAt blk 0) (byteAt blk 1) ∧ out.aidx = alphaWord blk ∧
    out.pal = paletteC (half blk 8) (half blk 10) ∧ out.cidx = colorWord blk 12 ∧
    (∀ p, p < 16 →
      let e := unpackRgba (out.pal.get (colorIndex out.cidx p))
      out.tile.get (Fin.ofNat 64 (4 * p)) = e.r ∧ out.tile.get (Fin.ofNat 64 (4 * p + 1)) = e.g ∧
      out.tile.get (Fin.ofNat 64 (4 * p + 2)) = e.b ∧
      out.tile.get (Fin.ofNat 64 (4 * p + 3)) = out.alphaC.get (alphaIndex out.aidx p)) ∧
    out.alphaB = sc.alphaB

/-- R87: the tile and the palette a block decodes to depend on the block's bytes alone, not on what the scratch registers
held before. -/
def Obligations.TileDependsOnBlockAlone : Prop :=
  ∀ (v : Variant) (blk : List Byte) (sc sc' : Scratch),
    (decodeBlock v blk sc).tile = (decodeBlock v blk sc').tile ∧
      (decodeBlock v blk sc).pal = (decodeBlock v blk sc').pal

/-! ### Grid and blitter -/

/-- R94: the formula of validWidth, and that it is the number of raster columns of the block, from 1 to 4. -/
def Obligations.ValidWidthClipsLastColumn : Prop :=
  ∀ w col, col < gridDim w →
    (col + 1 = gridDim w → validWidth w col = (w + 3) % 4 + 1) ∧ (col + 1 ≠ gridDim w → validWidth w col = 4) ∧
    validWidth w col = min 4 (w - 4 * col) ∧ 1 ≤ validWidth w col ∧ validWidth w col ≤ 4

/-- R94, R95: how many bytes the blit of a block writes. -/
def Obligations.BlitWritesClippedRectangle : Prop :=
  ∀ (w h col row : Nat) (tile : Vector Byte 64), row < gridDim h →
    (blitStores w h col row tile).length = 4 * validWidth w col * min 4 (h - 4 * row)

/-- R98: the blit of a block puts tile byte (4*(y mod 4) + x mod 4)*4 + c at DST offset (y*W + x)*4 + c for each raster
pixel (x, y) of the block, and leaves every other byte. -/
def Obligations.BlitPlacesTilePixels : Prop :=
  ∀ (m : Memory) (dst w h col row : Nat) (tile : Vector Byte 64), col < gridDim w →
    (∀ x y c, x < w → y < h → c < 4 → x / 4 = col → y / 4 = row →
      (blit m dst w h col row tile).read (dst + ((y * w + x) * 4 + c)) =
        tile.get (Fin.ofNat 64 ((4 * (y % 4) + x % 4) * 4 + c))) ∧
    (∀ a, (∀ x y c, x < w → y < h → c < 4 → x / 4 = col → y / 4 = row → a ≠ dst + ((y * w + x) * 4 + c)) →
      (blit m dst w h col row tile).read a = m.read a)

/-- R99, R36: over the whole grid the blits write every DST offset below W*H*4 exactly once, and no other. -/
def Obligations.EveryDstByteWrittenOnce : Prop :=
  ∀ (w h : Nat) (tile : Nat × Nat → Vector Byte 64),
    ((gridBlocks w h).flatMap fun b => (blitStores w h b.1 b.2 (tile b)).map Prod.fst).Perm (List.range (w * h * 4))

/-- R40, R105: blitting the blocks of the grid in any order leaves the same bytes. -/
def Obligations.BlockOrderDoesNotMatter : Prop :=
  ∀ (m : Memory) (dst w h : Nat) (tile : Nat × Nat → Vector Byte 64) (order : List (Nat × Nat)),
    order.Perm (gridBlocks w h) → ∀ a,
      (order.foldl (fun m b => blit m dst w h b.1 b.2 (tile b)) m).read a =
        ((gridBlocks w h).foldl (fun m b => blit m dst w h b.1 b.2 (tile b)) m).read a

/-! ### The unit's turns -/

/-- R100: what a BUSY unit does in each of its turns (none pending, its own, or under WAIT: logs 1 and 15), two of them a
block (log 2). The first decodes the block at the cursor, whose bytes are SRC's at OFF, and changes nothing else. The second
blits the tile (R98): at a block that is not the last of the grid the command stays BUSY and, whether or not the host has
written SRC or DST (R43, R123), that is still noted after it; at the last block it reaches DONE. An empty grid is DONE at
once (R104, log 19). `stage`, `dstLost`, `draws` and `readData` are the model's own (logs 2, 12, 11 and 16); what a set
`dstLost` does at DONE is InterferedCommandLosesDst. -/
def Obligations.UnitTurnAdvancesCommand : Prop :=
  ∀ (s : State) (rest : List Turn), UnitMoves s rest → s.isBusy = true →
    (s.stage = .read → s.latch.width ≠ 0 → s.latch.height ≠ 0 →
      s.cursor.off + Config.blockBytes s.latch.variant ≤ s.latch.len →
      step s = .next
        { s with
          pending := rest
          scratch :=
            decodeBlock s.latch.variant
              ((List.range (Config.blockBytes s.latch.variant)).map fun k =>
                s.mem.read (s.latch.srcBase + s.cursor.off + k))
              s.scratch
          stage := .blit }) ∧
    (s.stage = .blit → s.cursor.col < gridDim s.latch.width → s.cursor.row < gridDim s.latch.height →
      ∃ t, step s = .next t ∧ t.pending = rest ∧ t.stage = .read ∧ t.params = s.params ∧ t.readData = s.readData ∧
        t.draws = s.draws + 1 ∧
        (s.cursor.row * gridDim s.latch.width + s.cursor.col + 1 ≠ gridDim s.latch.width * gridDim s.latch.height →
          t.status = s.status ∧ t.latch = s.latch ∧ t.dstLost = s.dstLost) ∧
        (s.cursor.row * gridDim s.latch.width + s.cursor.col + 1 = gridDim s.latch.width * gridDim s.latch.height →
          t.status = 0x00000002#32) ∧
        (s.dstLost = false ∨
            s.cursor.row * gridDim s.latch.width + s.cursor.col + 1 ≠ gridDim s.latch.width * gridDim s.latch.height →
          (∀ x y c, x < s.latch.width → y < s.latch.height → c < 4 → x / 4 = s.cursor.col → y / 4 = s.cursor.row →
            t.mem.read (s.latch.dstBase + ((y * s.latch.width + x) * 4 + c)) =
              s.scratch.tile.get (Fin.ofNat 64 ((4 * (y % 4) + x % 4) * 4 + c))) ∧
          ∀ a,
            (∀ x y c, x < s.latch.width → y < s.latch.height → c < 4 → x / 4 = s.cursor.col → y / 4 = s.cursor.row →
              a ≠ s.latch.dstBase + ((y * s.latch.width + x) * 4 + c)) →
            t.mem.read a = s.mem.read a)) ∧
    (s.stage = .read → s.latch.width = 0 ∨ s.latch.height = 0 →
      ∃ t, step s = .next t ∧ t.status = 0x00000002#32 ∧ t.mem = s.mem ∧ t.pending = rest ∧ t.params = s.params ∧
        t.readData = s.readData)
end

