-- ==== Sys2Proof/Laws/State.lean ====
section
/-! SUPPORT. One lemma per field per named update of State, so that later proofs unfold no update. -/

namespace Sys2Proof.Machine

/-! ### s.beginCommand -/

@[simp] theorem beginCommand_params (s : State) (l : Latch) : (s.beginCommand l).params = s.params := rfl
@[simp] theorem beginCommand_pending (s : State) (l : Latch) : (s.beginCommand l).pending = s.pending := rfl
@[simp] theorem beginCommand_readData (s : State) (l : Latch) : (s.beginCommand l).readData = s.readData := rfl
@[simp] theorem beginCommand_status (s : State) (l : Latch) : (s.beginCommand l).status = statusWord .busy .none := rfl
@[simp] theorem beginCommand_latch (s : State) (l : Latch) : (s.beginCommand l).latch = l := rfl
@[simp] theorem beginCommand_cursor (s : State) (l : Latch) : (s.beginCommand l).cursor = Cursor.first := rfl
@[simp] theorem beginCommand_scratch (s : State) (l : Latch) : (s.beginCommand l).scratch = s.scratch := rfl
@[simp] theorem beginCommand_stage (s : State) (l : Latch) : (s.beginCommand l).stage = .read := rfl
@[simp] theorem beginCommand_dstLost (s : State) (l : Latch) : (s.beginCommand l).dstLost = false := rfl
@[simp] theorem beginCommand_mem (s : State) (l : Latch) : (s.beginCommand l).mem = s.mem := rfl
@[simp] theorem beginCommand_draws (s : State) (l : Latch) : (s.beginCommand l).draws = s.draws := rfl

/-! ### s.endCommand -/

@[simp] theorem endCommand_params (s : State) (word : Word) (lost : Bool) : (s.endCommand word lost).params = s.params := rfl
@[simp] theorem endCommand_pending (s : State) (word : Word) (lost : Bool) : (s.endCommand word lost).pending = s.pending := rfl
@[simp] theorem endCommand_readData (s : State) (word : Word) (lost : Bool) : (s.endCommand word lost).readData = s.readData := rfl
@[simp] theorem endCommand_status (s : State) (word : Word) (lost : Bool) : (s.endCommand word lost).status = word := rfl
@[simp] theorem endCommand_latch (s : State) (word : Word) (lost : Bool) : (s.endCommand word lost).latch = freeLatch s.params s.draws := rfl
@[simp] theorem endCommand_cursor (s : State) (word : Word) (lost : Bool) : (s.endCommand word lost).cursor = freeCursor s.draws := rfl
@[simp] theorem endCommand_scratch (s : State) (word : Word) (lost : Bool) : (s.endCommand word lost).scratch = freeScratch s.draws := rfl
@[simp] theorem endCommand_stage (s : State) (word : Word) (lost : Bool) : (s.endCommand word lost).stage = .read := rfl
@[simp] theorem endCommand_dstLost (s : State) (word : Word) (lost : Bool) : (s.endCommand word lost).dstLost = false := rfl
@[simp] theorem endCommand_mem (s : State) (word : Word) (lost : Bool) : (s.endCommand word lost).mem = 
      if lost then s.mem.lose s.latch.dstBase (rasterBytes s.latch.width s.latch.height) s.draws else s.mem := rfl
@[simp] theorem endCommand_draws (s : State) (word : Word) (lost : Bool) : (s.endCommand word lost).draws = s.draws + 1 := rfl

/-! ### s.finish -/

@[simp] theorem finish_params (s : State) : (s.finish).params = s.params := rfl
@[simp] theorem finish_pending (s : State) : (s.finish).pending = s.pending := rfl
@[simp] theorem finish_readData (s : State) : (s.finish).readData = s.readData := rfl
@[simp] theorem finish_status (s : State) : (s.finish).status = statusWord .done .none := rfl
@[simp] theorem finish_latch (s : State) : (s.finish).latch = freeLatch s.params s.draws := rfl
@[simp] theorem finish_cursor (s : State) : (s.finish).cursor = freeCursor s.draws := rfl
@[simp] theorem finish_scratch (s : State) : (s.finish).scratch = freeScratch s.draws := rfl
@[simp] theorem finish_stage (s : State) : (s.finish).stage = .read := rfl
@[simp] theorem finish_dstLost (s : State) : (s.finish).dstLost = false := rfl
@[simp] theorem finish_mem (s : State) : (s.finish).mem = 
      if s.dstLost then s.mem.lose s.latch.dstBase (rasterBytes s.latch.width s.latch.height) s.draws else s.mem := rfl
@[simp] theorem finish_draws (s : State) : (s.finish).draws = s.draws + 1 := rfl

/-! ### s.raiseInputTooShort -/

@[simp] theorem raiseInputTooShort_params (s : State) : (s.raiseInputTooShort).params = s.params := rfl
@[simp] theorem raiseInputTooShort_pending (s : State) : (s.raiseInputTooShort).pending = s.pending := rfl
@[simp] theorem raiseInputTooShort_readData (s : State) : (s.raiseInputTooShort).readData = s.readData := rfl
@[simp] theorem raiseInputTooShort_status (s : State) : (s.raiseInputTooShort).status = statusWord .error .inputTooShort := rfl
@[simp] theorem raiseInputTooShort_latch (s : State) : (s.raiseInputTooShort).latch = freeLatch s.params s.draws := rfl
@[simp] theorem raiseInputTooShort_cursor (s : State) : (s.raiseInputTooShort).cursor = freeCursor s.draws := rfl
@[simp] theorem raiseInputTooShort_scratch (s : State) : (s.raiseInputTooShort).scratch = freeScratch s.draws := rfl
@[simp] theorem raiseInputTooShort_stage (s : State) : (s.raiseInputTooShort).stage = .read := rfl
@[simp] theorem raiseInputTooShort_dstLost (s : State) : (s.raiseInputTooShort).dstLost = false := rfl
@[simp] theorem raiseInputTooShort_mem (s : State) : (s.raiseInputTooShort).mem = 
      s.mem.lose s.latch.dstBase (rasterBytes s.latch.width s.latch.height) s.draws := rfl
@[simp] theorem raiseInputTooShort_draws (s : State) : (s.raiseInputTooShort).draws = s.draws + 1 := rfl

/-! ### s.assertReset -/

@[simp] theorem assertReset_params (s : State) : (s.assertReset).params = s.params := rfl
@[simp] theorem assertReset_pending (s : State) : (s.assertReset).pending = s.pending := rfl
@[simp] theorem assertReset_readData (s : State) : (s.assertReset).readData = s.readData := rfl
@[simp] theorem assertReset_status (s : State) : (s.assertReset).status = statusWord .idle .none := rfl
@[simp] theorem assertReset_latch (s : State) : (s.assertReset).latch = freeLatch s.params s.draws := rfl
@[simp] theorem assertReset_cursor (s : State) : (s.assertReset).cursor = freeCursor s.draws := rfl
@[simp] theorem assertReset_scratch (s : State) : (s.assertReset).scratch = freeScratch s.draws := rfl
@[simp] theorem assertReset_stage (s : State) : (s.assertReset).stage = .read := rfl
@[simp] theorem assertReset_dstLost (s : State) : (s.assertReset).dstLost = false := rfl
@[simp] theorem assertReset_mem (s : State) : (s.assertReset).mem = 
      if s.isBusy then s.mem.lose s.latch.dstBase (rasterBytes s.latch.width s.latch.height) s.draws else s.mem := rfl
@[simp] theorem assertReset_draws (s : State) : (s.assertReset).draws = s.draws + 1 := rfl

/-! ### hostReadStatus -/

@[simp] theorem hostReadStatus_params (s : State) : (hostReadStatus s).params = s.params := rfl
@[simp] theorem hostReadStatus_pending (s : State) : (hostReadStatus s).pending = s.pending := rfl
@[simp] theorem hostReadStatus_readData (s : State) : (hostReadStatus s).readData = s.status := rfl
@[simp] theorem hostReadStatus_status (s : State) : (hostReadStatus s).status = s.status := rfl
@[simp] theorem hostReadStatus_latch (s : State) : (hostReadStatus s).latch = s.latch := rfl
@[simp] theorem hostReadStatus_cursor (s : State) : (hostReadStatus s).cursor = s.cursor := rfl
@[simp] theorem hostReadStatus_scratch (s : State) : (hostReadStatus s).scratch = s.scratch := rfl
@[simp] theorem hostReadStatus_stage (s : State) : (hostReadStatus s).stage = s.stage := rfl
@[simp] theorem hostReadStatus_dstLost (s : State) : (hostReadStatus s).dstLost = s.dstLost := rfl
@[simp] theorem hostReadStatus_mem (s : State) : (hostReadStatus s).mem = s.mem := rfl
@[simp] theorem hostReadStatus_draws (s : State) : (hostReadStatus s).draws = s.draws := rfl

end Sys2Proof.Machine
end

