-- ==== Sys2Proof/Laws/Memory.lean ====
section
/-! SUPPORT. What the memory operations do: a read after a write, after a loss, after a list of writes; and that each keeps
the canonical form. -/

namespace Sys2Proof.Machine

/-! ### One byte -/

theorem findCell_setCell (a b : Nat) (v : Byte) (l : List Host.Cell) :
    findCell b (setCell a v l) = if b = a then some v else findCell b l := by
  induction l with
  | nil => rfl
  | cons c rest ih =>
    obtain ⟨k, w⟩ := c
    by_cases h1 : a < k
    · simp [setCell, findCell, h1]
    · by_cases h2 : a = k
      · subst h2
        by_cases h3 : b = a <;> simp [setCell, findCell, h3]
      · by_cases h3 : b = k
        · have h4 : b ≠ a := by omega
          subst h3
          simp [setCell, findCell, h1, h2, h4]
        · simp [setCell, findCell, h1, h2, h3, ih]

theorem read_write (m : Memory) (a b : Nat) (v : Byte) :
    (m.write a v).read b = if b = a then v else m.read b := by
  unfold Memory.read Memory.write Memory.unlisted Memory.drawAt
  rw [findCell_setCell]
  split <;> rfl

theorem mem_setCell {a : Nat} {v : Byte} {l : List Host.Cell} {c : Host.Cell} (h : c ∈ setCell a v l) :
    c = (a, v) ∨ c ∈ l := by
  induction l with
  | nil => simpa [setCell] using h
  | cons d rest ih =>
    obtain ⟨k, w⟩ := d
    simp only [setCell] at h
    split at h
    · simpa using h
    · split at h
      · rcases List.mem_cons.1 h with h | h
        · exact .inl h
        · exact .inr (List.mem_cons_of_mem _ h)
      · rcases List.mem_cons.1 h with h | h
        · exact .inr (h ▸ List.mem_cons_self ..)
        · rcases ih h with h | h
          · exact .inl h
          · exact .inr (List.mem_cons_of_mem _ h)

theorem setCell_sorted {a : Nat} {v : Byte} {l : List Host.Cell} (h : l.Pairwise fun c c' => c.1 < c'.1) :
    (setCell a v l).Pairwise fun c c' => c.1 < c'.1 := by
  induction l with
  | nil => simp [setCell]
  | cons d rest ih =>
    obtain ⟨k, w⟩ := d
    obtain ⟨hk, hr⟩ := List.pairwise_cons.1 h
    simp only [setCell]
    split
    · rename_i h1
      refine List.pairwise_cons.2 ⟨fun c hc => ?_, h⟩
      rcases List.mem_cons.1 hc with rfl | hc
      · exact h1
      · exact Nat.lt_trans h1 (hk c hc)
    · split
      · rename_i h2
        subst h2
        exact List.pairwise_cons.2 ⟨fun c hc => hk c hc, hr⟩
      · rename_i h1 h2
        refine List.pairwise_cons.2 ⟨fun c hc => ?_, ih hr⟩
        rcases mem_setCell hc with rfl | hc
        · show k < a
          omega
        · exact hk c hc

theorem wf_iff (m : Memory) :
    m.wf = true ↔ (m.cells.Pairwise fun c c' => c.1 < c'.1) ∧ ∀ r ∈ m.lost, 0 < r.size := by
  simp [Memory.wf]

theorem write_wf {m : Memory} (a : Nat) (v : Byte) (h : m.wf = true) : (m.write a v).wf = true := by
  rw [wf_iff] at *
  exact ⟨setCell_sorted h.1, h.2⟩

@[simp] theorem write_lost (m : Memory) (a : Nat) (v : Byte) : (m.write a v).lost = m.lost := rfl

/-! ### A loss -/

theorem lost_covers_iff (base size draw a : Nat) :
    (Lost.mk base size draw).covers a = true ↔ base ≤ a ∧ a < base + size := by
  simp [Lost.covers]

theorem findCell_filter (f : Host.Cell → Bool) (a : Nat) (l : List Host.Cell) (h : ∀ v, f (a, v) = true) :
    findCell a (l.filter f) = findCell a l := by
  induction l with
  | nil => rfl
  | cons c rest ih =>
    obtain ⟨k, w⟩ := c
    by_cases hk : a = k
    · subst hk
      simp [findCell, h]
    · by_cases hf : f (k, w) = true
      · simp [findCell, hf, hk, ih]
      · simp [findCell, hf, hk, ih]

theorem findCell_eq_none {a : Nat} {l : List Host.Cell} (h : ∀ c ∈ l, c.1 ≠ a) : findCell a l = none := by
  induction l with
  | nil => rfl
  | cons c rest ih =>
    obtain ⟨k, w⟩ := c
    have hk : a ≠ k := fun e => h (k, w) (List.mem_cons_self ..) e.symm
    simp [findCell, hk, ih fun c hc => h c (List.mem_cons_of_mem _ hc)]

/-- A byte outside a lost range reads as before. -/
theorem read_lose_outside {m : Memory} {base size draw a : Nat} (h : ¬(base ≤ a ∧ a < base + size)) :
    (m.lose base size draw).read a = m.read a := by
  unfold Memory.lose
  split
  · rfl
  · have hc : (Lost.mk base size draw).covers a = false := by
      rw [Bool.eq_false_iff, Ne, lost_covers_iff]
      exact h
    have hf : findCell a (m.cells.filter fun c => !(Lost.mk base size draw).covers c.1) = findCell a m.cells :=
      findCell_filter _ a _ fun v => by simp [hc]
    simp only [Memory.read, Memory.unlisted, Memory.drawAt, hf, List.find?_cons, hc]

/-- A byte of a lost range reads as the free byte of its draw: it is any value. -/
theorem read_lose_inside {m : Memory} {base size draw a : Nat} (h : base ≤ a ∧ a < base + size) :
    (m.lose base size draw).read a = Config.freeByte draw a := by
  unfold Memory.lose
  have h0 : size ≠ 0 := by omega
  have hc : (Lost.mk base size draw).covers a = true := (lost_covers_iff ..).2 h
  have hf : findCell a (m.cells.filter fun c => !(Lost.mk base size draw).covers c.1) = none := by
    refine findCell_eq_none fun c hc' e => ?_
    subst e
    simp [hc] at hc'
  simp only [if_neg h0, Memory.read, Memory.unlisted, Memory.drawAt, hf, List.find?_cons, hc, Option.getD_none]

theorem lose_wf {m : Memory} (base size draw : Nat) (h : m.wf = true) : (m.lose base size draw).wf = true := by
  unfold Memory.lose
  split
  · exact h
  · rw [wf_iff] at *
    refine ⟨h.1.filter _, fun r hr => ?_⟩
    rcases List.mem_cons.1 hr with rfl | hr
    · show 0 < size
      omega
    · exact h.2 r hr

theorem lose_cells_subset {m : Memory} {base size draw : Nat} {c : Host.Cell}
    (h : c ∈ (m.lose base size draw).cells) : c ∈ m.cells := by
  unfold Memory.lose at h
  split at h
  · exact h
  · exact (List.mem_filter.1 h).1

theorem mem_lose_lost {m : Memory} {base size draw : Nat} {r : Lost} (h : r ∈ (m.lose base size draw).lost) :
    r.draw = draw ∨ r ∈ m.lost := by
  unfold Memory.lose at h
  split at h
  · exact .inr h
  · rcases List.mem_cons.1 h with rfl | h
    · exact .inl rfl
    · exact .inr h

/-! ### A list of writes -/

@[simp] theorem writeAll_nil (m : Memory) : m.writeAll [] = m := rfl

@[simp] theorem writeAll_cons (m : Memory) (c : Host.Cell) (l : List Host.Cell) :
    m.writeAll (c :: l) = (m.write c.1 c.2).writeAll l := rfl

theorem writeAll_append (m : Memory) (l l' : List Host.Cell) :
    m.writeAll (l ++ l') = (m.writeAll l).writeAll l' := by
  simp [Memory.writeAll]

theorem read_writeAll_outside {l : List Host.Cell} {a : Nat} (h : ∀ c ∈ l, c.1 ≠ a) (m : Memory) :
    (m.writeAll l).read a = m.read a := by
  induction l generalizing m with
  | nil => rfl
  | cons c rest ih =>
    have hc : a ≠ c.1 := fun e => h c (List.mem_cons_self ..) e.symm
    rw [writeAll_cons, ih fun d hd => h d (List.mem_cons_of_mem _ hd), read_write, if_neg hc]

/-- A byte written by a list of writes that never gives its address two values reads as written. -/
theorem read_writeAll_mem {l : List Host.Cell} {a : Nat} {v : Byte} (h : (a, v) ∈ l)
    (huniq : ∀ w, (a, w) ∈ l → w = v) (m : Memory) : (m.writeAll l).read a = v := by
  induction l generalizing m with
  | nil => cases h
  | cons c rest ih =>
    rw [writeAll_cons]
    by_cases hr : (a, v) ∈ rest
    · exact ih hr (fun w hw => huniq w (List.mem_cons_of_mem _ hw)) _
    · obtain rfl : (a, v) = c := by
        rcases List.mem_cons.1 h with h | h
        · exact h
        · exact absurd h hr
      rw [read_writeAll_outside, read_write, if_pos rfl]
      rintro ⟨b, w⟩ hd rfl
      exact hr (huniq w (List.mem_cons_of_mem _ hd) ▸ hd)

theorem writeAll_wf {l : List Host.Cell} {m : Memory} (h : m.wf = true) : (m.writeAll l).wf = true := by
  induction l generalizing m with
  | nil => exact h
  | cons c rest ih => exact ih (write_wf c.1 c.2 h)

@[simp] theorem writeAll_lost (l : List Host.Cell) (m : Memory) : (m.writeAll l).lost = m.lost := by
  induction l generalizing m with
  | nil => rfl
  | cons c rest ih => rw [writeAll_cons, ih, write_lost]

theorem mem_writeAll_cells {l : List Host.Cell} {m : Memory} {c : Host.Cell} (h : c ∈ (m.writeAll l).cells) :
    c ∈ l ∨ c ∈ m.cells := by
  induction l generalizing m with
  | nil => exact .inr h
  | cons d rest ih =>
    rcases ih h with h | h
    · exact .inl (List.mem_cons_of_mem _ h)
    · rcases mem_setCell h with rfl | h
      · exact .inl (List.mem_cons_self ..)
      · exact .inr h

/-! ### Reading several bytes -/

@[simp] theorem readBytes_length (m : Memory) (a n : Nat) : (m.readBytes a n).length = n := by
  simp [Memory.readBytes]

/-- Two memories that agree on n bytes read them alike. -/
theorem readBytes_congr {m m' : Memory} {a n : Nat} (h : ∀ k, k < n → m.read (a + k) = m'.read (a + k)) :
    m.readBytes a n = m'.readBytes a n := by
  simp only [Memory.readBytes, List.map_inj_left, List.mem_range]
  exact h

/-! ### Plain memory -/

theorem regionHolds_iff (r : Region) (a : Nat) : regionHolds r a = true ↔ r.base ≤ a ∧ a < r.base + r.size := by
  simp [regionHolds]

/-- A covered range lies in regions that pass the test. -/
theorem covered_sound {ok : Region → Bool} {l : List Region} {lo hi : Nat} (h : covered ok l lo hi = true) :
    ∀ a, lo ≤ a → a < hi → ∃ r ∈ l, ok r = true ∧ r.base ≤ a ∧ a < r.base + r.size := by
  induction l generalizing lo with
  | nil =>
    intro a h1 h2
    simp [covered] at h
    omega
  | cons r rs ih =>
    intro a h1 h2
    simp only [covered, Bool.and_eq_true, regionHolds_iff] at h
    split at h
    · rename_i hr
      by_cases ha : a < r.base + r.size
      · exact ⟨r, List.mem_cons_self .., hr.1, by omega, ha⟩
      · obtain ⟨r', hr', h'⟩ := ih h a (by omega) h2
        exact ⟨r', List.mem_cons_of_mem _ hr', h'⟩
    · obtain ⟨r', hr', h'⟩ := ih h a h1 h2
      exact ⟨r', List.mem_cons_of_mem _ hr', h'⟩

/-- A range all of whose addresses lie in passing regions, listed in rising order, is covered. -/
theorem covered_complete {ok : Region → Bool} {l : List Region} {lo hi : Nat}
    (hsort : l.Pairwise fun r r' => r.base + r.size ≤ r'.base)
    (h : ∀ a, lo ≤ a → a < hi → ∃ r ∈ l, ok r = true ∧ r.base ≤ a ∧ a < r.base + r.size) :
    covered ok l lo hi = true := by
  induction l generalizing lo with
  | nil =>
    by_contra hc
    simp [covered] at hc
    obtain ⟨r, hr, -⟩ := h lo (Nat.le_refl _) hc
    cases hr
  | cons r rs ih =>
    obtain ⟨hr, hs⟩ := List.pairwise_cons.1 hsort
    simp only [covered, Bool.and_eq_true, regionHolds_iff]
    split
    · rename_i hlo
      refine ih hs fun a h1 h2 => ?_
      obtain ⟨r', hr', hok, hb⟩ := h a (by omega) h2
      rcases List.mem_cons.1 hr' with rfl | hr'
      · omega
      · exact ⟨r', hr', hok, hb⟩
    · rename_i hlo
      refine ih hs fun a h1 h2 => ?_
      obtain ⟨r', hr', hok, hb⟩ := h a h1 h2
      rcases List.mem_cons.1 hr' with rfl | hr'
      · exfalso
        obtain ⟨q, hq, hqok, hqb⟩ := h lo (Nat.le_refl _) (by omega)
        rcases List.mem_cons.1 hq with rfl | hq
        · exact hlo ⟨hqok, hqb⟩
        · have := hr q hq
          omega
      · exact ⟨r', hr', hok, hb⟩

end Sys2Proof.Machine
end

