-- ==== Sys2Proof/Laws/Blit.lean ====
section
/-! SUPPORT. The grid and the blitter: which DST offsets a block's blit writes, with what, and what reads as before. -/

namespace Sys2Proof.Machine

/-! ### The grid -/

theorem emptyGrid_eq_true_iff (w h : Nat) : emptyGrid w h = true ↔ w = 0 ∨ h = 0 := by
  simp only [emptyGrid, gridDim, Bool.or_eq_true, beq_iff_eq]
  omega

theorem emptyGrid_eq_false_iff (w h : Nat) : emptyGrid w h = false ↔ 0 < gridDim w ∧ 0 < gridDim h := by
  simp only [emptyGrid, Bool.or_eq_false_iff, beq_eq_false_iff_ne]
  omega

/-- A block column of a pixel of the raster. -/
theorem div_lt_gridDim {x w : Nat} (h : x < w) : x / 4 < gridDim w := by
  unfold gridDim
  omega

/-- The columns the blitter copies are the tile columns inside the raster. -/
theorem lt_validWidth_iff {w col j : Nat} (hc : col < gridDim w) :
    j < validWidth w col ↔ j < 4 ∧ col * 4 + j < w := by
  unfold validWidth gridDim at *
  split <;> omega

theorem isLast_iff (c : Cursor) (w h : Nat) :
    c.isLast w h = true ↔ gridDim w ≤ c.col + 1 ∧ gridDim h ≤ c.row + 1 := by
  simp [Cursor.isLast]

/-! ### Pixels and their offsets -/

/-- Distinct pixel bytes of the raster have distinct DST offsets. -/
theorem pixelOffset_inj {w x y c x' y' c' : Nat} (hx : x < w) (hx' : x' < w) (hc : c < 4) (hc' : c' < 4)
    (h : pixelOffset w x y + c = pixelOffset w x' y' + c') : x = x' ∧ y = y' ∧ c = c' := by
  unfold pixelOffset at h
  have h1 : y * w + x = y' * w + x' := by omega
  have h2 : c = c' := by omega
  have hy : y = y' := by
    have e1 : (y * w + x) / w = y := by
      rw [Nat.mul_comm, Nat.mul_add_div (by omega), Nat.div_eq_of_lt hx, Nat.add_zero]
    have e2 : (y' * w + x') / w = y' := by
      rw [Nat.mul_comm, Nat.mul_add_div (by omega), Nat.div_eq_of_lt hx', Nat.add_zero]
    rw [← e1, ← e2, h1]
  subst hy
  exact ⟨by omega, rfl, h2⟩

/-- Every byte of a raster pixel lies in the DST region. -/
theorem pixelOffset_lt {w h x y c : Nat} (hx : x < w) (hy : y < h) (hc : c < 4) :
    pixelOffset w x y + c < rasterBytes w h := by
  unfold pixelOffset rasterBytes
  have h1 : (y + 1) * w ≤ h * w := Nat.mul_le_mul_right w hy
  have h2 : (y + 1) * w = y * w + w := by ring
  have h3 : h * w = w * h := Nat.mul_comm h w
  omega

/-- Every DST offset is a byte of one raster pixel. -/
theorem exists_pixelOffset {w h o : Nat} (ho : o < rasterBytes w h) :
    ∃ x y c, x < w ∧ y < h ∧ c < 4 ∧ o = pixelOffset w x y + c := by
  unfold rasterBytes at ho
  have hw : 0 < w := by
    rcases Nat.eq_zero_or_pos w with rfl | hw
    · simp at ho
    · exact hw
  refine ⟨o / 4 % w, o / 4 / w, o % 4, Nat.mod_lt _ hw, ?_, Nat.mod_lt _ (by omega), ?_⟩
  · rw [Nat.div_lt_iff_lt_mul hw]
    have : h * w = w * h := Nat.mul_comm h w
    omega
  · unfold pixelOffset
    have h1 := Nat.div_add_mod (o / 4) w
    rw [Nat.mul_comm] at h1
    omega

/-! ### The blitter's writes -/

/-- The byte of a tile a pixel of the raster takes (45_blit_and_commands.md R99). -/
def tileByte (tile : Vector Byte 64) (x y c : Nat) : Byte :=
  tile.get (Fin.ofNat 64 ((4 * (y % 4) + x % 4) * 4 + c))

/-- The writes of a block's blit: for every raster pixel of the block and every channel, the tile's byte at its offset. -/
theorem mem_blitStores {w h col row : Nat} {tile : Vector Byte 64} {o : Nat} {v : Byte} (hc : col < gridDim w) :
    (o, v) ∈ blitStores w h col row tile ↔
      ∃ x y c, x < w ∧ y < h ∧ c < 4 ∧ x / 4 = col ∧ y / 4 = row ∧
        o = pixelOffset w x y + c ∧ v = tileByte tile x y c := by
  simp only [blitStores, List.mem_flatMap, List.mem_range]
  constructor
  · rintro ⟨i, hi, hmem⟩
    split at hmem
    · rename_i hrow
      obtain ⟨j, hj, hmem⟩ := List.mem_flatMap.1 hmem
      rw [List.mem_range] at hj
      obtain ⟨hj4, hjw⟩ := (lt_validWidth_iff hc).1 hj
      obtain ⟨c, hc4, heq⟩ := List.mem_map.1 hmem
      rw [List.mem_range] at hc4
      obtain ⟨rfl, rfl⟩ := Prod.mk.inj heq
      refine ⟨col * 4 + j, row * 4 + i, c, hjw, hrow, hc4, by omega, by omega, rfl, ?_⟩
      have e1 : (row * 4 + i) % 4 = i := by omega
      have e2 : (col * 4 + j) % 4 = j := by omega
      rw [tileByte, e1, e2]
    · cases hmem
  · rintro ⟨x, y, c, hx, hy, hc4, rfl, rfl, rfl, rfl⟩
    refine ⟨y % 4, by omega, ?_⟩
    have e1 : y / 4 * 4 + y % 4 = y := by omega
    have e2 : x / 4 * 4 + x % 4 = x := by omega
    rw [if_pos (by omega)]
    refine List.mem_flatMap.2 ⟨x % 4, List.mem_range.2 ((lt_validWidth_iff hc).2 ⟨by omega, by omega⟩), ?_⟩
    refine List.mem_map.2 ⟨c, List.mem_range.2 hc4, ?_⟩
    rw [e1, e2]
    rfl

/-- A raster pixel of the block reads as the tile's pixel after the blit. -/
theorem read_blit_pixel {m : Memory} {dst w h x y c : Nat} {tile : Vector Byte 64} (hx : x < w) (hy : y < h)
    (hc : c < 4) :
    (blit m dst w h (x / 4) (y / 4) tile).read (dst + (pixelOffset w x y + c)) = tileByte tile x y c := by
  have hcol := div_lt_gridDim hx
  refine read_writeAll_mem (List.mem_map.2 ⟨(pixelOffset w x y + c, tileByte tile x y c),
    (mem_blitStores hcol).2 ⟨x, y, c, hx, hy, hc, rfl, rfl, rfl, rfl⟩, rfl⟩) (fun v hv => ?_) m
  obtain ⟨⟨o, v'⟩, hmem, heq⟩ := List.mem_map.1 hv
  obtain ⟨ho, rfl⟩ := Prod.mk.inj heq
  obtain ⟨x', y', c', hx', -, hc', -, -, rfl, rfl⟩ := (mem_blitStores hcol).1 hmem
  have heq : pixelOffset w x' y' + c' = pixelOffset w x y + c := by simpa using ho
  obtain ⟨rfl, rfl, rfl⟩ := pixelOffset_inj hx' hx hc' hc heq
  rfl

/-- Every address that is no byte of a raster pixel of the block reads as before the blit. -/
theorem read_blit_other {m : Memory} {dst w h col row a : Nat} {tile : Vector Byte 64} (hcol : col < gridDim w)
    (ha : ∀ x y c, x < w → y < h → c < 4 → x / 4 = col → y / 4 = row → a ≠ dst + (pixelOffset w x y + c)) :
    (blit m dst w h col row tile).read a = m.read a := by
  refine read_writeAll_outside (fun c hc heq => ?_) m
  obtain ⟨⟨o, v⟩, hmem, rfl⟩ := List.mem_map.1 hc
  obtain ⟨x, y, k, hx, hy, hk, hxc, hyr, rfl, -⟩ := (mem_blitStores hcol).1 hmem
  exact ha x y k hx hy hk hxc hyr heq.symm

/-- Every address outside the DST region reads as before the blit. -/
theorem read_blit_outside {m : Memory} {dst w h col row a : Nat} {tile : Vector Byte 64} (hcol : col < gridDim w)
    (ha : ¬(dst ≤ a ∧ a < dst + rasterBytes w h)) : (blit m dst w h col row tile).read a = m.read a := by
  refine read_blit_other hcol fun x y c hx hy hc _ _ heq => ha ?_
  have := pixelOffset_lt (h := h) hx hy hc
  omega

theorem blit_wf {m : Memory} {dst w h col row : Nat} {tile : Vector Byte 64} (hm : m.wf = true) :
    (blit m dst w h col row tile).wf = true :=
  writeAll_wf hm

@[simp] theorem blit_lost (m : Memory) (dst w h col row : Nat) (tile : Vector Byte 64) :
    (blit m dst w h col row tile).lost = m.lost :=
  writeAll_lost ..

/-- A byte listed after a blit was listed before, or lies in the DST region. -/
theorem mem_blit_cells {m : Memory} {dst w h col row : Nat} {tile : Vector Byte 64} {c : Host.Cell}
    (hcol : col < gridDim w) (hc : c ∈ (blit m dst w h col row tile).cells) :
    (dst ≤ c.1 ∧ c.1 < dst + rasterBytes w h) ∨ c ∈ m.cells := by
  rcases mem_writeAll_cells hc with hc | hc
  · obtain ⟨⟨o, v⟩, hmem, rfl⟩ := List.mem_map.1 hc
    obtain ⟨x, y, k, hx, hy, hk, -, -, rfl, -⟩ := (mem_blitStores hcol).1 hmem
    have := pixelOffset_lt (h := h) hx hy hk
    exact .inl ⟨Nat.le_add_right .., by simpa using this⟩
  · exact .inr hc

end Sys2Proof.Machine
end

