-- ==== Sys2Proof/Laws/Sequencer.lean ====
section
/-! SUPPORT. STATUS and its fields, what one step of the decoder unit can do, and what a command's acceptance can do. -/

namespace Sys2Proof.Machine

/-! ### STATUS -/

@[simp] theorem statusWord_idle : statusWord .idle .none = 0x00000000#32 := by decide
@[simp] theorem statusWord_busy : statusWord .busy .none = 0x00000001#32 := by decide
@[simp] theorem statusWord_done : statusWord .done .none = 0x00000002#32 := by decide
@[simp] theorem statusWord_error : statusWord .error .inputTooShort = 0x00000013#32 := by decide

/-- Whether the unit is BUSY depends on STATUS alone. -/
theorem isBusy_congr {s t : State} (h : s.status = t.status) : s.isBusy = t.isBusy := by
  simp only [State.isBusy, State.stateField, h]

theorem isBusy_of_status {s : State} (h : s.status = 0x00000001#32) : s.isBusy = true := by
  simp only [State.isBusy, State.stateField, h]
  decide

theorem not_isBusy_of_status {s : State}
    (h : s.status = 0x00000000#32 ∨ s.status = 0x00000002#32 ∨ s.status = 0x00000013#32) : s.isBusy = false := by
  rcases h with h | h | h <;> simp only [State.isBusy, State.stateField, h] <;> decide

@[simp] theorem beginCommand_isBusy (s : State) (l : Latch) : (s.beginCommand l).isBusy = true :=
  isBusy_of_status (by simp)

@[simp] theorem finish_isBusy (s : State) : s.finish.isBusy = false :=
  not_isBusy_of_status (by simp)

@[simp] theorem raiseInputTooShort_isBusy (s : State) : s.raiseInputTooShort.isBusy = false :=
  not_isBusy_of_status (by simp)

@[simp] theorem assertReset_isBusy (s : State) : s.assertReset.isBusy = false :=
  not_isBusy_of_status (by simp)

/-! ### One step of the decoder unit -/

/-- The state once the block at the cursor is decoded. -/
def State.afterRead (s : State) : State :=
  { s with scratch := decodeBlock s.latch.variant s.blockAtCursor s.scratch, stage := .blit }

/-- Memory once the tile is blitted. -/
def State.blitted (s : State) : Memory :=
  blit s.mem s.latch.dstBase s.latch.width s.latch.height s.cursor.col s.cursor.row s.scratch.tile

/-- The state once the tile is blitted and the cursor stands at the next block. -/
def State.afterBlit (s : State) : State :=
  { s with
    mem := s.blitted
    cursor := s.cursor.advance s.latch.width (Config.blockBytes s.latch.variant)
    scratch := freeScratch s.draws
    stage := .read
    draws := s.draws + 1 }

/-- The state with its memory replaced by the blitted one. -/
def State.withBlitted (s : State) : State :=
  { s with mem := s.blitted }

/-- Everything one step of a BUSY decoder unit can do (R100): finish an empty grid, raise InputTooShort, decode a block, or
blit a tile and either finish or advance. -/
theorem unitStep_cases (s : State) :
    (s.stage = .read ∧ emptyGrid s.latch.width s.latch.height = true ∧ unitStep s = s.finish) ∨
    (s.stage = .read ∧ emptyGrid s.latch.width s.latch.height = false ∧
      s.latch.len < s.cursor.off + Config.blockBytes s.latch.variant ∧ unitStep s = s.raiseInputTooShort) ∨
    (s.stage = .read ∧ emptyGrid s.latch.width s.latch.height = false ∧
      s.cursor.off + Config.blockBytes s.latch.variant ≤ s.latch.len ∧ unitStep s = s.afterRead) ∨
    (s.stage = .blit ∧ s.cursor.isLast s.latch.width s.latch.height = true ∧ unitStep s = s.withBlitted.finish) ∨
    (s.stage = .blit ∧ s.cursor.isLast s.latch.width s.latch.height = false ∧ unitStep s = s.afterBlit) := by
  rcases hst : s.stage with _ | _
  · simp only [unitStep, hst, readStep]
    split
    · simp_all
    · split <;> simp_all [State.afterRead]
  · simp only [unitStep, hst, blitStep]
    split <;> simp_all [State.withBlitted, State.afterBlit, State.blitted]

/-- A unit step writes none of the parameters, the pending turns or the host's read data. -/
theorem unitStep_host_fields (s : State) :
    (unitStep s).params = s.params ∧ (unitStep s).pending = s.pending ∧ (unitStep s).readData = s.readData := by
  obtain ⟨-, -, h⟩ | ⟨-, -, -, h⟩ | ⟨-, -, -, h⟩ | ⟨-, -, h⟩ | ⟨-, -, h⟩ := unitStep_cases s <;> rw [h] <;>
    exact ⟨rfl, rfl, rfl⟩

end Sys2Proof.Machine
end

