-- ==== Sys2Proof/Laws/Command.lean ====
section
/-! SUPPORT. What issuing a command can do, when it is refused, and everything one step of the machine can do. -/

namespace Sys2Proof.Machine

/-- The three commands differ in the variant only (45_blit_and_commands.md R101 to R103). -/
theorem exec_eq (i : Instr) (s : State) :
    exec i s = acceptCommand i.variant i.dst i.src i.len i.width i.height s := by
  cases i <;> rfl

/-- A command does one of two things: it is refused, or it begins. -/
theorem exec_cases (i : Instr) (s : State) :
    (∃ r, commandRefusal s i.dst i.src i.len i.width i.height = some r ∧ exec i s = .refused r) ∨
    (commandRefusal s i.dst i.src i.len i.width i.height = none ∧ exec i s = .next (s.beginCommand (latchOf i))) := by
  rw [exec_eq, acceptCommand]
  split
  · exact .inl ⟨_, ‹_›, rfl⟩
  · exact .inr ⟨‹_›, rfl⟩

theorem rangesOverlap_iff (lo n lo' n' : Nat) :
    rangesOverlap lo n lo' n' = true ↔ ∃ a, InRange lo n a ∧ InRange lo' n' a := by
  simp only [rangesOverlap, decide_eq_true_eq, InRange]
  constructor
  · intro h
    exact ⟨max lo lo', by omega, by omega⟩
  · rintro ⟨a, h, h'⟩
    omega

/-- A command whose regions are not refused meets the host's duties. -/
theorem hostDuties_of_regionRefusal {p : Params} {i : Instr}
    (h : regionRefusal p i.dst i.src i.len i.width i.height = none) : HostDuties p i := by
  unfold regionRefusal at h
  split at h
  · cases h
  split at h
  · cases h
  split at h
  · cases h
  split at h
  · cases h
  split at h
  · cases h
  rename_i h1 h2 h3 h4 h5
  simp only [Bool.not_eq_true, Bool.not_eq_false'] at h3 h4
  refine ⟨by omega, by omega, fun a ha => ?_, fun a ha => ?_, fun a ha => h5 ((rangesOverlap_iff ..).2 ⟨a, ha⟩)⟩
  · exact covered_sound h3 a ha.1 ha.2
  · exact covered_sound h4 a ha.1 ha.2

theorem map_sorted {p : Params} (h : p.wf = true) : p.map.Pairwise fun r r' => r.base + r.size ≤ r'.base := by
  simp only [Params.wf, Bool.and_eq_true, decide_eq_true_eq] at h
  exact h.2

/-- On a platform whose map is in order, a command that meets the host's duties is not refused for its regions. -/
theorem regionRefusal_of_hostDuties {p : Params} {i : Instr} (hp : p.wf = true) (h : HostDuties p i) :
    regionRefusal p i.dst i.src i.len i.width i.height = none := by
  have hs : covered (fun r => r.readable) p.map i.src (i.src + i.len) = true :=
    covered_complete (map_sorted hp) fun a h1 h2 => h.srcPlain a ⟨h1, h2⟩
  have hd : covered (fun r => r.writable) p.map i.dst (i.dst + rasterBytes i.width i.height) = true :=
    covered_complete (map_sorted hp) fun a h1 h2 => h.dstPlain a ⟨h1, h2⟩
  have ho : rangesOverlap i.src i.len i.dst (rasterBytes i.width i.height) = false := by
    rw [Bool.eq_false_iff, Ne, rangesOverlap_iff]
    rintro ⟨a, ha⟩
    exact h.apart a ha
  have h1 := h.srcTop
  have h2 := h.dstTop
  rw [regionRefusal, if_neg (by omega), if_neg (by omega), hs, hd, ho]
  rfl

/-- When nothing is refused, the command may be launched. -/
theorem launchable_of_commandRefusal {s : State} {i : Instr}
    (h : commandRefusal s i.dst i.src i.len i.width i.height = none) : Launchable s i := by
  unfold commandRefusal at h
  split at h
  · cases h
  rename_i hb
  refine ⟨by simpa using hb, ?_⟩
  split at h
  · rename_i h0
    rcases h0 with h0 | h0
    · exact .inl h0
    · exact .inr (.inl h0)
  · exact .inr (.inr (hostDuties_of_regionRefusal h))

/-- A launchable command is not refused. -/
theorem commandRefusal_of_launchable {s : State} {i : Instr} (hp : s.params.wf = true) (h : Launchable s i) :
    commandRefusal s i.dst i.src i.len i.width i.height = none := by
  unfold commandRefusal
  rw [h.1]
  by_cases h0 : i.width = 0 ∨ i.height = 0
  · simp [h0]
  · have hd : HostDuties s.params i := by
      rcases h.2 with h' | h' | h'
      · exact absurd (.inl h') h0
      · exact absurd (.inr h') h0
      · exact h'
    simp [h0, regionRefusal_of_hostDuties hp hd]

/-- A launchable command begins. -/
theorem exec_of_launchable {s : State} {i : Instr} (hp : s.params.wf = true) (h : Launchable s i) :
    exec i s = .next (s.beginCommand (latchOf i)) := by
  rcases exec_cases i s with ⟨r, hr, -⟩ | ⟨-, he⟩
  · rw [commandRefusal_of_launchable hp h] at hr
    cases hr
  · exact he

/-- The state with the turns after the first one pending. -/
def State.popped (s : State) (rest : List Turn) : State :=
  { s with pending := rest }

@[simp] theorem popped_params (s : State) (rest : List Turn) : (s.popped rest).params = s.params := rfl
@[simp] theorem popped_pending (s : State) (rest : List Turn) : (s.popped rest).pending = rest := rfl
@[simp] theorem popped_readData (s : State) (rest : List Turn) : (s.popped rest).readData = s.readData := rfl
@[simp] theorem popped_status (s : State) (rest : List Turn) : (s.popped rest).status = s.status := rfl
@[simp] theorem popped_latch (s : State) (rest : List Turn) : (s.popped rest).latch = s.latch := rfl
@[simp] theorem popped_cursor (s : State) (rest : List Turn) : (s.popped rest).cursor = s.cursor := rfl
@[simp] theorem popped_scratch (s : State) (rest : List Turn) : (s.popped rest).scratch = s.scratch := rfl
@[simp] theorem popped_stage (s : State) (rest : List Turn) : (s.popped rest).stage = s.stage := rfl
@[simp] theorem popped_dstLost (s : State) (rest : List Turn) : (s.popped rest).dstLost = s.dstLost := rfl
@[simp] theorem popped_mem (s : State) (rest : List Turn) : (s.popped rest).mem = s.mem := rfl
@[simp] theorem popped_draws (s : State) (rest : List Turn) : (s.popped rest).draws = s.draws := rfl
@[simp] theorem popped_isBusy (s : State) (rest : List Turn) : (s.popped rest).isBusy = s.isBusy := rfl

@[simp] theorem popped_inSrc (s : State) (rest : List Turn) (a : Nat) : (s.popped rest).inSrc a = s.inSrc a := rfl
@[simp] theorem popped_inDst (s : State) (rest : List Turn) (a : Nat) : (s.popped rest).inDst a = s.inDst a := rfl

theorem inSrc_iff (s : State) (a : Nat) : s.inSrc a = true ↔ InRange s.latch.srcBase s.latch.len a := by
  simp [State.inSrc, InRange]

theorem inDst_iff (s : State) (a : Nat) :
    s.inDst a = true ↔ InRange s.latch.dstBase (rasterBytes s.latch.width s.latch.height) a := by
  simp [State.inDst, InRange]

/-- The state after the host has read a byte of memory: a fresh free byte in a running command's DST, else memory's. -/
def State.afterReadMem (s : State) (a : Nat) : State :=
  if s.isBusy && s.inDst a then
    { s with readData := (Config.freeByte s.draws a).setWidth 32, draws := s.draws + 1 }
  else { s with readData := (s.mem.read a).setWidth 32 }

/-- The state after the host has written a byte of memory. -/
def State.afterWriteMem (s : State) (a : Nat) (v : Byte) : State :=
  { s with
    mem := s.mem.write a v
    dstLost := s.dstLost || (s.isBusy && (s.inSrc a || s.inDst a)) }

/-! ### What each turn is, read forwards -/

theorem hostReadMem_eq {a : Nat} {s : State} (h : plainAt s.params a = true) :
    hostReadMem a s = .next (s.afterReadMem a) := by
  rw [hostReadMem, State.afterReadMem, h]
  cases s.isBusy && s.inDst a <;> rfl

theorem hostWriteMem_eq {a : Nat} {v : Byte} {s : State} (h : plainAt s.params a = true) :
    hostWriteMem a v s = .next (s.afterWriteMem a v) := by
  rw [hostWriteMem, h]
  rfl

theorem step_nil {s : State} (h : s.pending = []) : step s = .next (unitTurn s) := by
  simp only [step, h]

theorem step_unit {s : State} {rest : List Turn} (h : s.pending = .unit :: rest) :
    step s = .next (unitTurn (s.popped rest)) := by
  simp only [step, h, State.popped]

theorem step_command_refused {s : State} {d : Descriptor} {rest : List Turn} {r : Reject}
    (h : s.pending = .host (.command d) :: rest) (hd : decode s.params d = .error r) :
    step s = .refused (rejectRefusal r) := by
  simp only [step, h, hd]

/-- A descriptor the decoder rejects begins nothing; one it accepts begins or is refused by its own command. -/
theorem step_command_decoded {s : State} {d : Descriptor} {rest : List Turn} {i : Instr}
    (h : s.pending = .host (.command d) :: rest) (hd : decode s.params d = .ok i) :
    step s =
      match commandRefusal (s.popped rest) i.dst i.src i.len i.width i.height with
      | some r => .refused r
      | none => .next ((s.popped rest).beginCommand (latchOf i)) := by
  have he : step s = exec i (s.popped rest) := by
    simp only [step, h, hd, State.popped]
  rw [he, exec_eq]
  rfl

theorem step_readStatus {s : State} {rest : List Turn} (h : s.pending = .host .readStatus :: rest) :
    step s = .next (hostReadStatus (s.popped rest)) := by
  simp only [step, h, State.popped]

theorem step_writeStatus {s : State} {v : Word} {rest : List Turn} (h : s.pending = .host (.writeStatus v) :: rest) :
    step s = .refused .statusWrite := by
  simp only [step, h]

theorem step_readMem {s : State} {a : Nat} {rest : List Turn} (h : s.pending = .host (.readMem a) :: rest) :
    step s = hostReadMem a (s.popped rest) := by
  simp only [step, h, State.popped]

theorem step_writeMem {s : State} {a : Nat} {v : Byte} {rest : List Turn}
    (h : s.pending = .host (.writeMem a v) :: rest) : step s = hostWriteMem a v (s.popped rest) := by
  simp only [step, h, State.popped]

theorem step_wait {s : State} {rest : List Turn} (h : s.pending = .host .wait :: rest) :
    step s = .next (hostWait rest s) := by
  simp only [step, h]

theorem step_reset {s : State} {rest : List Turn} (h : s.pending = .host .reset :: rest) :
    step s = .next (s.popped rest).assertReset := by
  simp only [step, h, State.popped]

/-- Whichever turn the decoder unit moves in, the step is its turn. -/
theorem step_of_unitMoves {s : State} {rest : List Turn} (h : UnitMoves s rest) :
    step s = .next (unitTurn (s.popped rest)) := by
  rcases h with ⟨h, rfl⟩ | h | ⟨hb, rfl, more, h⟩
  · rw [step_nil h, State.popped, ← h]
  · exact step_unit h
  · rw [step_wait h, State.popped]
    simp [hostWait, unitTurn, hb]

/-- The addresses the host may touch: inside the host address space and in a region of the map. -/
theorem plainAt_iff (p : Params) (a : Nat) :
    plainAt p a = true ↔ a < 2 ^ p.addrBits ∧ ∃ r ∈ p.map, InRange r.base r.size a := by
  simp [plainAt, regionHolds_iff, InRange]

theorem hostReadMem_refused {a : Nat} {s : State} (h : plainAt s.params a = false) :
    hostReadMem a s = .refused .notPlainMemory := by
  rw [hostReadMem, h]
  rfl

theorem hostWriteMem_refused {a : Nat} {v : Byte} {s : State} (h : plainAt s.params a = false) :
    hostWriteMem a v s = .refused .notPlainMemory := by
  rw [hostWriteMem, h]
  rfl

/-! ### What a step can do, read backwards -/

/-- Everything a step that answers a next state can do. -/
theorem step_cases {s t : State} (h : step s = .next t) :
    (s.pending = [] ∧ t = unitTurn s) ∨
    (∃ rest, s.pending = .unit :: rest ∧ t = unitTurn (s.popped rest)) ∨
    (∃ d rest i, s.pending = .host (.command d) :: rest ∧ decode s.params d = .ok i ∧
      commandRefusal (s.popped rest) i.dst i.src i.len i.width i.height = none ∧
      t = (s.popped rest).beginCommand (latchOf i)) ∨
    (∃ rest, s.pending = .host .readStatus :: rest ∧ t = hostReadStatus (s.popped rest)) ∨
    (∃ a rest, s.pending = .host (.readMem a) :: rest ∧ plainAt s.params a = true ∧
      t = (s.popped rest).afterReadMem a) ∨
    (∃ a v rest, s.pending = .host (.writeMem a v) :: rest ∧ plainAt s.params a = true ∧
      t = (s.popped rest).afterWriteMem a v) ∨
    (∃ rest, s.pending = .host .wait :: rest ∧
      (s.isBusy = true ∧ t = unitStep s ∨
        s.isBusy = false ∧ t = { s with pending := rest, readData := s.status })) ∨
    (∃ rest, s.pending = .host .reset :: rest ∧ t = (s.popped rest).assertReset) := by
  unfold step at h
  split at h
  · cases h
    exact .inl ⟨‹_›, rfl⟩
  · cases h
    exact .inr (.inl ⟨_, ‹_›, rfl⟩)
  · rename_i d rest hpend
    split at h
    · rename_i i hdec
      rcases exec_cases i (s.popped rest) with ⟨r, -, he⟩ | ⟨hr, he⟩
      · rw [State.popped] at he
        rw [he] at h
        cases h
      · rw [State.popped] at he
        rw [he] at h
        cases h
        exact .inr (.inr (.inl ⟨d, rest, i, hpend, hdec, hr, rfl⟩))
    · cases h
  · cases h
    exact .inr (.inr (.inr (.inl ⟨_, ‹_›, rfl⟩)))
  · cases h
  · rename_i a rest hpend
    rw [hostReadMem] at h
    split at h
    · cases h
    · rename_i hp
      refine .inr (.inr (.inr (.inr (.inl ⟨a, rest, hpend, by simpa using hp, ?_⟩))))
      simp only [State.afterReadMem, State.popped] at *
      split at h <;> cases h <;> simp_all
  · rename_i a v rest hpend
    rw [hostWriteMem] at h
    split at h
    · cases h
    · rename_i hp
      cases h
      exact .inr (.inr (.inr (.inr (.inr (.inl ⟨a, v, rest, hpend, by simpa using hp, rfl⟩)))))
  · rename_i rest hpend
    cases h
    refine .inr (.inr (.inr (.inr (.inr (.inr (.inl ⟨rest, hpend, ?_⟩))))))
    by_cases hb : s.isBusy = true
    · exact .inl ⟨hb, by simp [hostWait, hb]⟩
    · exact .inr ⟨by simpa using hb, by simp [hostWait, hb]⟩
  · cases h
    exact .inr (.inr (.inr (.inr (.inr (.inr (.inr ⟨_, ‹_›, rfl⟩))))))

end Sys2Proof.Machine
end

