-- ==== Sys2Proof/Laws/PerInstr.lean ====
section
/-! SUPPORT. What holds of every command as syntax, one lemma per constructor: family CommandWord says which CMD word an
instruction is issued with (30_encoding.md R48). -/

namespace Sys2Proof.Laws

/-- The CMD word of the instruction's descriptor has its 30 reserved bits 0 and the variant code the table gives. -/
def CommandWord.Statement (i : Instr) : Prop :=
  (encode i).cmd =
    match i with
    | .decodeBc1 _ _ _ _ _ => 0x00000000#32
    | .decodeBc2 _ _ _ _ _ => 0x00000001#32
    | .decodeBc3 _ _ _ _ _ => 0x00000002#32

theorem CommandWord.decodeBc1 (dst src len width height : Nat) :
    CommandWord.Statement (.decodeBc1 dst src len width height) := rfl

theorem CommandWord.decodeBc2 (dst src len width height : Nat) :
    CommandWord.Statement (.decodeBc2 dst src len width height) := rfl

theorem CommandWord.decodeBc3 (dst src len width height : Nat) :
    CommandWord.Statement (.decodeBc3 dst src len width height) := rfl

end Sys2Proof.Laws
end

