-- ==== Sys2Proof/Laws/Run.lean ====
section
/-! SUPPORT. A command run to its end: what is true after k blocks, and what the next two unit steps make of it. -/

namespace Sys2Proof.Machine

/-! ### Runs -/

theorem run_zero (s : State) : Host.Core.run Sys2Proof.core 0 s = .next s := rfl

theorem run_succ {s t : State} (h : step s = .next t) (n : Nat) :
    Host.Core.run Sys2Proof.core (n + 1) s = Host.Core.run Sys2Proof.core n t := by
  have hc : Sys2Proof.core.step s = .next t := h
  simp only [Host.Core.run, hc]

theorem run_add {s t : State} {a : Nat} (h : Host.Core.run Sys2Proof.core a s = .next t) (b : Nat) :
    Host.Core.run Sys2Proof.core (a + b) s = Host.Core.run Sys2Proof.core b t := by
  induction a generalizing s with
  | zero =>
    cases h
    rw [Nat.zero_add]
  | succ a ih =>
    rcases hs : step s with u | r | r
    · rw [run_succ hs] at h
      rw [Nat.add_right_comm, run_succ hs, ih h]
    · cases r
    · have hr : Host.Core.run Sys2Proof.core (a + 1) s = .refused r := by
        have hc : Sys2Proof.core.step s = .refused r := hs
        simp only [Host.Core.run, hc]
      rw [hr] at h
      cases h

/-- A BUSY unit with no turn pending takes its own step. -/
theorem step_of_busy {s : State} (hp : s.pending = []) (hb : s.isBusy = true) : step s = .next (unitStep s) := by
  rw [step_nil hp, unitTurn, if_pos hb]

/-! ### Block indices -/

/-- The row-major index of a grid block is below the number of blocks. -/
theorem blockIndex_lt {col row bcx bcy : Nat} (hc : col < bcx) (hr : row < bcy) : row * bcx + col < bcx * bcy := by
  have h1 : (row + 1) * bcx ≤ bcy * bcx := Nat.mul_le_mul_right _ hr
  have h2 : (row + 1) * bcx = row * bcx + bcx := by ring
  have h3 : bcy * bcx = bcx * bcy := Nat.mul_comm ..
  omega

theorem blockIndex_inj {col row col' row' bcx : Nat} (hc : col < bcx) (hc' : col' < bcx)
    (h : row * bcx + col = row' * bcx + col') : col = col' ∧ row = row' := by
  have e1 : (row * bcx + col) / bcx = row := by
    rw [Nat.mul_comm, Nat.mul_add_div (by omega), Nat.div_eq_of_lt hc, Nat.add_zero]
  have e2 : (row' * bcx + col') / bcx = row' := by
    rw [Nat.mul_comm, Nat.mul_add_div (by omega), Nat.div_eq_of_lt hc', Nat.add_zero]
  have hr : row = row' := by rw [← e1, ← e2, h]
  subst hr
  exact ⟨by omega, rfl⟩

/-- The cursor stands at the last block exactly when its index is the last. -/
theorem isLast_iff_index {c : Cursor} {w h : Nat} (hc : c.col < gridDim w) (hr : c.row < gridDim h) :
    c.isLast w h = true ↔ c.row * gridDim w + c.col + 1 = gridDim w * gridDim h := by
  rw [isLast_iff]
  constructor
  · rintro ⟨h1, h2⟩
    have e1 : gridDim w = c.col + 1 := by omega
    have e2 : gridDim h = c.row + 1 := by omega
    rw [e2, Nat.mul_add, Nat.mul_comm]
    omega
  · intro e
    have hlt : ¬c.row + 1 < gridDim h := fun hlt => by
      have := blockIndex_lt (row := c.row + 1) (Nat.lt_of_le_of_lt (Nat.zero_le _) hc) hlt
      rw [Nat.add_mul] at this
      omega
    have e2 : gridDim h = c.row + 1 := by omega
    rw [e2, Nat.mul_add, Nat.mul_comm] at e
    omega

/-- Advancing from a block that is not the last goes to the next index, inside the grid. -/
theorem advance_index {c : Cursor} {w h : Nat} (hc : c.col < gridDim w) (hr : c.row < gridDim h)
    (hl : c.isLast w h = false) (bb : Nat) :
    (c.advance w bb).col < gridDim w ∧ (c.advance w bb).row < gridDim h ∧
      (c.advance w bb).row * gridDim w + (c.advance w bb).col = c.row * gridDim w + c.col + 1 ∧
      (c.advance w bb).off = c.off + bb := by
  have hl' : ¬(gridDim w ≤ c.col + 1 ∧ gridDim h ≤ c.row + 1) := by
    rw [← isLast_iff, hl]
    simp
  unfold Cursor.advance
  split
  · exact ⟨by assumption, hr, by simp only []; omega, rfl⟩
  · refine ⟨by simp only []; omega, by simp only []; omega, ?_, rfl⟩
    simp only [Nat.add_mul]
    omega

/-- The tile of a block does not depend on what the scratch registers held. -/
theorem decodeBlock_tile (v : Variant) (blk : List Byte) (sc : Scratch) :
    (decodeBlock v blk sc).tile = tileOfBlock v blk := by
  cases v <;> rfl

/-! ### A command after k blocks -/

/-- What holds when k blocks of a command issued in state s are decoded and blitted, and the unit is about to read the next
one, the host having left it alone. -/
structure Progress (i : Instr) (s : State) (k : Nat) (u : State) : Prop where
  status : u.status = 0x00000001#32
  stage : u.stage = .read
  pending : u.pending = []
  params : u.params = s.params
  readData : u.readData = s.readData
  dstLost : u.dstLost = false
  latch : u.latch = latchOf i
  col : u.cursor.col < gridDim i.width
  row : u.cursor.row < gridDim i.height
  index : u.cursor.row * gridDim i.width + u.cursor.col = k
  off : u.cursor.off = k * Config.blockBytes i.variant
  outside : ∀ a, ¬InRange i.dst (rasterBytes i.width i.height) a → u.mem.read a = s.mem.read a
  done : ∀ x y c, x < i.width → y < i.height → c < 4 → y / 4 * gridDim i.width + x / 4 < k →
    u.mem.read (i.dst + (pixelOffset i.width x y + c)) =
      rasterByte i.variant (fun o => s.mem.read (i.src + o)) i.width x y c

theorem Progress.busy {i : Instr} {s u : State} {k : Nat} (h : Progress i s k u) : u.isBusy = true :=
  isBusy_of_status h.status

/-- An accepted command whose grid has a block has made no progress yet. -/
theorem progress_begin {i : Instr} {s : State} (hp : s.pending = [])
    (he : emptyGrid i.width i.height = false) : Progress i s 0 (s.beginCommand (latchOf i)) := by
  obtain ⟨hw, hh⟩ := (emptyGrid_eq_false_iff ..).1 he
  refine ⟨by simp, rfl, hp, rfl, rfl, rfl, rfl, hw, hh, ?_, ?_, fun a _ => rfl, fun x y c _ _ _ h => ?_⟩
  · simp [Cursor.first]
  · simp [Cursor.first]
  · omega

/-- The state once the block after k blocks is decoded, while its tile waits: what the first of its two steps gives. -/
theorem progress_read {i : Instr} {s u : State} {k : Nat} (h : Progress i s k u)
    (hl : (k + 1) * Config.blockBytes i.variant ≤ i.len) :
    emptyGrid i.width i.height = false ∧ step u = .next u.afterRead := by
  have he : emptyGrid i.width i.height = false := by
    have h1 := h.col
    have h2 := h.row
    rw [emptyGrid_eq_false_iff]
    omega
  refine ⟨he, ?_⟩
  rw [step_of_busy h.pending h.busy]
  have hoff := h.off
  rw [Nat.add_mul] at hl
  simp only [unitStep, h.stage, readStep, h.latch, latchOf, he]
  rw [if_neg (by simp), if_neg (by omega), State.afterRead, h.latch]
  rfl

/-- The block that is read is the one DECODE_FN names, when SRC is out of the reach of the blits so far. -/
theorem progress_block {i : Instr} {s u : State} {k : Nat} (h : Progress i s k u) (hd : HostDuties s.params i)
    (hl : (k + 1) * Config.blockBytes i.variant ≤ i.len) :
    u.blockAtCursor =
      srcBlock i.variant (fun o => s.mem.read (i.src + o)) i.width u.cursor.col u.cursor.row := by
  rw [Nat.add_mul] at hl
  unfold State.blockAtCursor srcBlock Memory.readBytes
  rw [h.latch, h.index, ← h.off]
  have hoff := h.off
  refine List.map_congr_left fun o ho => ?_
  have ho' : o < Config.blockBytes i.variant := List.mem_range.1 ho
  show u.mem.read (i.src + u.cursor.off + o) = _
  rw [Nat.add_assoc]
  exact h.outside _ fun hin => hd.apart _ ⟨⟨Nat.le_add_right .., by omega⟩, hin⟩

/-- Memory after the next block's blit: one more block is done, and nothing outside DST has changed. -/
theorem progress_blitted {i : Instr} {s u : State} {k : Nat} (h : Progress i s k u) (hd : HostDuties s.params i)
    (hl : (k + 1) * Config.blockBytes i.variant ≤ i.len) :
    (∀ a, ¬InRange i.dst (rasterBytes i.width i.height) a → u.afterRead.blitted.read a = s.mem.read a) ∧
    (∀ x y c, x < i.width → y < i.height → c < 4 → y / 4 * gridDim i.width + x / 4 < k + 1 →
      u.afterRead.blitted.read (i.dst + (pixelOffset i.width x y + c)) =
        rasterByte i.variant (fun o => s.mem.read (i.src + o)) i.width x y c) := by
  have hblit : u.afterRead.blitted =
      blit u.mem i.dst i.width i.height u.cursor.col u.cursor.row
        (tileOfBlock i.variant (srcBlock i.variant (fun o => s.mem.read (i.src + o)) i.width u.cursor.col u.cursor.row)) := by
    show blit u.mem u.latch.dstBase u.latch.width u.latch.height u.cursor.col u.cursor.row
      (decodeBlock u.latch.variant u.blockAtCursor u.scratch).tile = _
    rw [decodeBlock_tile, progress_block h hd hl, h.latch]
    rfl
  rw [hblit]
  refine ⟨fun a ha => (read_blit_outside h.col ha).trans (h.outside a ha), fun x y c hx hy hc hk => ?_⟩
  by_cases he : y / 4 * gridDim i.width + x / 4 = k
  · obtain ⟨hcol, hrow⟩ := blockIndex_inj (div_lt_gridDim hx) h.col (he.trans h.index.symm)
    rw [← hcol, ← hrow, read_blit_pixel hx hy hc]
    rfl
  · rw [read_blit_other h.col]
    · exact h.done x y c hx hy hc (by omega)
    · rintro x' y' c' hx' hy' hc' hcol hrow heq
      obtain ⟨rfl, rfl, -⟩ := pixelOffset_inj hx hx' hc hc' (Nat.add_left_cancel heq)
      rw [hcol, hrow] at he
      exact he h.index

/-- Two steps further, when another block follows. -/
theorem progress_next {i : Instr} {s u : State} {k : Nat} (h : Progress i s k u) (hd : HostDuties s.params i)
    (hl : (k + 1) * Config.blockBytes i.variant ≤ i.len) (hk : k + 1 < gridDim i.width * gridDim i.height) :
    ∃ u', Host.Core.run Sys2Proof.core 2 u = .next u' ∧ Progress i s (k + 1) u' := by
  obtain ⟨-, hs⟩ := progress_read h hl
  obtain ⟨hout, hdone⟩ := progress_blitted h hd hl
  have hlast : u.cursor.isLast i.width i.height = false := by
    rw [Bool.eq_false_iff, Ne, isLast_iff_index h.col h.row, h.index]
    omega
  have hs2 : step u.afterRead = .next u.afterRead.afterBlit := by
    rw [step_of_busy (s := u.afterRead) h.pending h.busy]
    have hlast' : u.afterRead.cursor.isLast u.afterRead.latch.width u.afterRead.latch.height = false := by
      show u.cursor.isLast u.latch.width u.latch.height = false
      rw [h.latch]
      exact hlast
    simp only [unitStep, show u.afterRead.stage = .blit from rfl, blitStep, hlast']
    rfl
  have hadv := advance_index h.col h.row hlast (Config.blockBytes i.variant)
  have hcur : u.afterRead.afterBlit.cursor = u.cursor.advance i.width (Config.blockBytes i.variant) := by
    show u.cursor.advance u.latch.width (Config.blockBytes u.latch.variant) = _
    rw [h.latch]
    rfl
  refine ⟨u.afterRead.afterBlit, by rw [run_succ hs, run_succ hs2, run_zero], ?_⟩
  refine ⟨h.status, rfl, h.pending, h.params, h.readData, h.dstLost, h.latch, ?_, ?_, ?_, ?_, hout, hdone⟩
  · rw [hcur]
    exact hadv.1
  · rw [hcur]
    exact hadv.2.1
  · rw [hcur, hadv.2.2.1, h.index]
  · rw [hcur, hadv.2.2.2, h.off, Nat.add_mul, Nat.one_mul]

/-- Two steps further, when the block is the last one: the state the command ends in. -/
theorem progress_finish {i : Instr} {s u : State} {k : Nat} (h : Progress i s k u)
    (hl : (k + 1) * Config.blockBytes i.variant ≤ i.len) (hk : k + 1 = gridDim i.width * gridDim i.height) :
    Host.Core.run Sys2Proof.core 2 u = .next u.afterRead.withBlitted.finish ∧
      u.afterRead.withBlitted.finish.mem = u.afterRead.blitted := by
  obtain ⟨-, hs⟩ := progress_read h hl
  have hs2 : step u.afterRead = .next u.afterRead.withBlitted.finish := by
    rw [step_of_busy (s := u.afterRead) h.pending h.busy]
    have hlast' : u.afterRead.cursor.isLast u.afterRead.latch.width u.afterRead.latch.height = true := by
      show u.cursor.isLast u.latch.width u.latch.height = true
      rw [h.latch]
      exact (isLast_iff_index h.col h.row).2 (by rw [h.index, hk])
    simp only [unitStep, show u.afterRead.stage = .blit from rfl, blitStep, hlast', if_true]
    rfl
  refine ⟨by rw [run_succ hs, run_succ hs2, run_zero], ?_⟩
  rw [finish_mem, show u.afterRead.withBlitted.dstLost = false from h.dstLost]
  rfl

/-- One step further, when the block passes L: the error. -/
theorem progress_short {i : Instr} {s u : State} {k : Nat} (h : Progress i s k u)
    (hl : i.len < (k + 1) * Config.blockBytes i.variant) : step u = .next u.raiseInputTooShort := by
  have he : emptyGrid i.width i.height = false := by
    have h1 := h.col
    have h2 := h.row
    rw [emptyGrid_eq_false_iff]
    omega
  have hoff := h.off
  rw [Nat.add_mul] at hl
  rw [step_of_busy h.pending h.busy]
  simp only [unitStep, h.stage, readStep, h.latch, latchOf, he]
  rw [if_neg (by simp), if_pos (by omega)]

/-- After 2k steps of an accepted command, k blocks are done, as long as they lie within L and are not all of them. -/
theorem progress_run {i : Instr} {s : State} (hp : s.pending = []) (hd : HostDuties s.params i)
    (he : emptyGrid i.width i.height = false) (k : Nat) (hk : k < gridDim i.width * gridDim i.height)
    (hl : k * Config.blockBytes i.variant ≤ i.len) :
    ∃ u, Host.Core.run Sys2Proof.core (2 * k) (s.beginCommand (latchOf i)) = .next u ∧ Progress i s k u := by
  induction k with
  | zero => exact ⟨_, rfl, progress_begin hp he⟩
  | succ k ih =>
    obtain ⟨u, hu, hprog⟩ := ih (by omega) (by rw [Nat.add_mul] at hl; omega)
    obtain ⟨u', hu', hprog'⟩ := progress_next hprog hd hl hk
    exact ⟨u', by rw [Nat.mul_add, run_add hu, hu'], hprog'⟩

end Sys2Proof.Machine
end

