-- ==== Sys2Proof/Tests/Slice0.lean ====
section
/-! SUPPORT. Tests, each expected value taken from the spec (95_test_vectors.md, whose vector is named), and for each
statement of Obligations.lean that has hypotheses a witness that meets them. -/

namespace Sys2Proof.Tests

open Sys2Proof.Machine

/-! ### Helpers -/

/-- The reset state with some turns to come. -/
def turns (l : List Turn) : State :=
  { State.reset with pending := l }

/-- A memory that holds some bytes from an address on. -/
def memAt (a : Nat) (bytes : List Byte) : Memory :=
  { cells := bytes.zipIdx.map fun c => (a + c.2, c.1), lost := [] }

/-- The state in which a command has just been accepted, with a memory. -/
def accepted (i : Instr) (m : Memory) : State :=
  { State.reset with mem := m }.beginCommand (latchOf i)

/-- The same, with the cursor further on. -/
def atBlock (i : Instr) (m : Memory) (col row off : Nat) : State :=
  { accepted i m with cursor := { col := col, row := row, off := off } }

/-- The same, with a block decoded and its tile waiting. -/
def decodedAt (i : Instr) (m : Memory) (col row off : Nat) (blk : List Byte) : State :=
  { atBlock i m col row off with stage := .blit, scratch := decodeBlock i.variant blk State.reset.scratch }

/-- The bytes of memory from an address on. -/
def bytesOf (m : Memory) (a n : Nat) : List Nat :=
  (m.readBytes a n).map BitVec.toNat

/-- The state after a step, for a test to read; the state itself where the step does not answer one. -/
def after (s : State) : State :=
  match step s with
  | .next t => t
  | .fault _ => s
  | .refused _ => s

/-- The pixels of a tile, as tuples of naturals. -/
def pixels (tile : Vector Byte 64) (ps : List Nat) : List (List Nat) :=
  ps.map fun p => (List.range 4).map fun c => (tile.get (Fin.ofNat 64 (4 * p + c))).toNat

/-- The entries of a palette, as tuples of naturals. -/
def entries (pal : Vector Word 4) : List (List Nat) :=
  pal.toList.map fun w =>
    [(unpackRgba w).r.toNat, (unpackRgba w).g.toNat, (unpackRgba w).b.toNat, (unpackRgba w).a.toNat]

/-- The block bytes of vectors V-D2, V-D4, V-D5 and V-D8. -/
def blockD2 : List Byte := [0x1F, 0x00, 0x00, 0xF8, 0x1B, 0x1B, 0x1B, 0x1B]
def blockD4 : List Byte :=
  [0x10, 0x32, 0x54, 0x76, 0x98, 0xBA, 0xDC, 0xFE, 0x1F, 0x00, 0x00, 0xF8, 0xE4, 0xE4, 0xE4, 0xE4]
def blockD5 : List Byte :=
  [0xFF, 0x00, 0x88, 0xC6, 0xFA, 0x88, 0xC6, 0xFA, 0x00, 0xF8, 0xE0, 0x07, 0xE4, 0xE4, 0xE4, 0xE4]
def blockD8 : List Byte :=
  [0x0A, 0x14, 0x02, 0x00, 0x00, 0x00, 0x00, 0x00, 0xE0, 0x07, 0x00, 0xF8, 0x02, 0x00, 0x00, 0x00]

/-! ### WellFormed: the smoke test, one ill-formed term for each check (30_encoding.md R46) -/

theorem test_wf_accepts_widest :
    (Instr.decodeBc3 (2 ^ 64 - 1) (2 ^ 64 - 1) (2 ^ 64 - 1) (2 ^ 32 - 1) (2 ^ 32 - 1)).wf Params.default = true := by
  decide

theorem test_wf_refuses_dst : (Instr.decodeBc1 (2 ^ 64) 0 0 0 0).wf Params.default = false := by decide

theorem test_wf_refuses_src : (Instr.decodeBc1 0 (2 ^ 64) 0 0 0).wf Params.default = false := by decide

theorem test_wf_refuses_len : (Instr.decodeBc2 0 0 (2 ^ 64) 0 0).wf Params.default = false := by decide

theorem test_wf_refuses_width : (Instr.decodeBc2 0 0 0 (2 ^ 32) 0).wf Params.default = false := by decide

theorem test_wf_refuses_height : (Instr.decodeBc3 0 0 0 0 (2 ^ 32)).wf Params.default = false := by decide

theorem test_params_default_wf : Params.default.wf = true := by decide

/-! ### Decoding: each command's word, bit by bit (30_encoding.md R48) -/

theorem test_word_bc1 : decodeTableWord 32 0b00000000000000000000000000000000 = some (.decodeBc1 0 0 0 0 0) := by decide

theorem test_word_bc2 : decodeTableWord 32 0b00000000000000000000000000000001 = some (.decodeBc2 0 0 0 0 0) := by decide

theorem test_word_bc3 : decodeTableWord 32 0b00000000000000000000000000000010 = some (.decodeBc3 0 0 0 0 0) := by decide

/-- V-E10 to V-E12. -/
theorem test_reserved_words :
    [0b00000000000000000000000000000011, 0b00000000000000000000000000000100,
      0b10000000000000000000000000000001].map (decodeTableWord 32) = [none, none, none] := by decide

/-- The descriptor of program P2. -/
theorem test_encode_p2 :
    encode (.decodeBc3 0x2000 0x1000 64 5 5) =
      { cmd := 2#32, width := 5, height := 5, len := 64, srcBase := 0x1000, dstBase := 0x2000 } := by decide

theorem test_wide_field_refused :
    decode Params.default { cmd := 0#32, width := 2 ^ 32, height := 1, len := 8, srcBase := 0, dstBase := 64 } =
      .error .fieldTooWide := by decide

/-- A table word runs as the first instruction after reset. -/
theorem test_withFetchWord_runs :
    (after (State.reset.withFetchWord 32 1)).status = 1#32 ∧
      (after (State.reset.withFetchWord 32 1)).latch.variant = .B := by decide

/-! ### Color codec -/

/-- V-U6, V-U7, V-U12. -/
theorem test_unpack565 :
    [0x8410#16, 0x0821#16, 0x1234#16].map unpack565 = [⟨132, 130, 132⟩, ⟨8, 4, 8⟩, ⟨16, 69, 165⟩] := by decide

/-- V-P1, V-P3. -/
theorem test_pack_unpack : packRgba 1 2 3 4 = 0x04010203#32 ∧ unpackRgba 0xFF00FF00#32 = ⟨0, 255, 0, 255⟩ := by decide

/-! ### Palettes -/

/-- V-L7: the order of the raw words decides, not luminance. -/
theorem test_palette_a_raw_order :
    entries (paletteA 0x0800 0x07FF) = [[8, 0, 0, 255], [0, 255, 255, 255], [5, 85, 85, 255], [2, 170, 170, 255]] := by
  decide

/-- V-L3: equal endpoints take the cutout branch. -/
theorem test_palette_a_equal :
    entries (paletteA 0x8410 0x8410) =
      [[132, 130, 132, 255], [132, 130, 132, 255], [132, 130, 132, 255], [0, 0, 0, 0]] := by decide

/-- V-L13: entry 2 is the average, entry 3 still the one-third interpolant. -/
theorem test_palette_b :
    entries (paletteB 0x1234 0x5678) = [[16, 69, 165, 0], [82, 207, 198, 0], [49, 138, 181, 0], [60, 161, 187, 0]] := by
  decide

/-- V-L9: with c0 above c1, entry 2 is the two-thirds interpolant. -/
theorem test_palette_b_greater :
    entries (paletteB 0xF800 0x001F) = [[255, 0, 0, 0], [0, 0, 255, 0], [170, 0, 85, 0], [85, 0, 170, 0]] := by decide

/-- V-L18: both interpolants on the branch where A and B average. -/
theorem test_palette_c :
    entries (paletteC 0x1234 0x5678) = [[16, 69, 165, 0], [82, 207, 198, 0], [38, 115, 176, 0], [60, 161, 187, 0]] := by
  decide

/-! ### Alpha tables -/

/-- V-A2: pixel 1 is the high nibble of byte 0, pixel 14 the low nibble of byte 7. -/
theorem test_alpha_table_b_order :
    (alphaTableB [0xF0, 0, 0, 0, 0, 0, 0, 0x0F]).toList.map BitVec.toNat =
      [0, 255, 0, 0, 0, 0, 0, 0, 0, 0, 0, 0, 0, 0, 255, 0] := by decide

/-- V-A6 and V-A7, the source's own examples. -/
theorem test_alpha_table_c :
    (alphaTableC 255 0).toList.map BitVec.toNat = [255, 0, 218, 182, 145, 109, 72, 36] ∧
      (alphaTableC 100 200).toList.map BitVec.toNat = [100, 200, 120, 140, 160, 180, 0, 255] := by decide

/-- V-A10 and V-A16: equal endpoints take the six-value branch; every division truncates. -/
theorem test_alpha_table_c_corners :
    (alphaTableC 7 7).toList.map BitVec.toNat = [7, 7, 7, 7, 7, 7, 0, 255] ∧
      (alphaTableC 128 127).toList.map BitVec.toNat = [128, 127, 127, 127, 127, 127, 127, 127] := by decide

/-! ### Index fields -/

/-- V-B2 and V-B3. -/
theorem test_color_index :
    (List.range 4).map (fun p => (colorIndex (colorWord [0x1B, 0x1B, 0x1B, 0x1B] 0) p).val) = [3, 2, 1, 0] ∧
      [0, 14, 15].map (fun p => (colorIndex (colorWord [0x00, 0x00, 0x00, 0xC0] 0) p).val) = [0, 0, 3] := by decide

/-- V-B4 and V-B7: pixel 2's index straddles two bytes. -/
theorem test_alpha_index :
    (List.range 16).map (fun p => (alphaIndex 0xFAC688FAC688#48 p).val) =
        [0, 1, 2, 3, 4, 5, 6, 7, 0, 1, 2, 3, 4, 5, 6, 7] ∧
      (List.range 4).map (fun p => (alphaIndex 0x0000000001C0#48 p).val) = [0, 0, 7, 0] := by decide

/-! ### Block decoders -/

/-- V-D2. -/
theorem test_decode_block_a :
    pixels (decodeBlockA blockD2 State.reset.scratch).tile [0, 1, 14, 15] =
      [[0, 0, 0, 0], [127, 0, 127, 255], [255, 0, 0, 255], [0, 0, 255, 255]] := by decide

/-- V-D4. -/
theorem test_decode_block_b :
    pixels (decodeBlockB blockD4 State.reset.scratch).tile [0, 1, 6, 15] =
      [[0, 0, 255, 0], [255, 0, 0, 17], [127, 0, 127, 102], [170, 0, 85, 255]] := by decide

/-- V-D5: color and alpha index of a pixel are independent. -/
theorem test_decode_block_c :
    pixels (decodeBlockC blockD5 State.reset.scratch).tile [0, 1, 4, 15] =
      [[255, 0, 0, 255], [0, 255, 0, 0], [255, 0, 0, 145], [85, 170, 0, 36]] := by decide

/-- V-D8: the alternate gradient, with the two-thirds color on the branch where c0 is below c1. -/
theorem test_decode_block_c_alternate :
    pixels (decodeBlockC blockD8 State.reset.scratch).tile [0, 1] = [[85, 170, 0, 12], [0, 255, 0, 10]] := by decide

/-! ### Grid and blitter -/

/-- V-G3, V-G4, V-G5, V-G7, V-G9, V-G1. -/
theorem test_grid :
    [1, 4, 5, 7, 9].map gridDim = [1, 1, 2, 2, 3] ∧
      [(1, 0), (4, 0), (5, 1), (7, 1), (9, 2)].map (fun p => validWidth p.1 p.2) = [1, 4, 1, 3, 1] ∧
      emptyGrid 0 7 = true ∧ requiredLen .A 9 1 = 24 ∧ requiredLen .C 5 5 = 64 := by decide

/-- V-G11: of block (1,0) of a 6 by 3 raster, three rows of two pixels are written, at their offsets in rows of 24 bytes. -/
theorem test_blit_clips :
    (blitStores 6 3 1 0 State.reset.scratch.tile).map Prod.fst =
      [16, 17, 18, 19, 20, 21, 22, 23, 40, 41, 42, 43, 44, 45, 46, 47, 64, 65, 66, 67, 68, 69, 70, 71] := by decide

/-! ### The commands, one step each -/

/-- V-E8: a command of zero size is DONE by the unit's first step. -/
theorem test_bc1_zero_size : (unitStep (accepted (.decodeBc1 0x2000 0x1000 0 0 7) (memAt 0 []))).status = 2#32 := by decide

/-- Program P1: the second block's blit ends it, and puts pixel (4, 0) and pixel (7, 3) at offsets 16 and 124. -/
theorem test_bc1_last_block :
    (unitStep (decodedAt (.decodeBc1 0x2000 0x1000 16 8 4) (memAt 0 []) 1 0 8 blockD2)).status = 2#32 ∧
      bytesOf (unitStep (decodedAt (.decodeBc1 0x2000 0x1000 16 8 4) (memAt 0 []) 1 0 8 blockD2)).mem 0x2010 8 =
        [0, 0, 0, 0, 127, 0, 127, 255] ∧
      bytesOf (unitStep (decodedAt (.decodeBc1 0x2000 0x1000 16 8 4) (memAt 0 []) 1 0 8 blockD2)).mem 0x207C 4 =
        [0, 0, 255, 255] := by decide

/-- V-E1: the second block, at offset 16 of 16 bytes. -/
theorem test_bc2_short : (unitStep (atBlock (.decodeBc2 0x2000 0x1000 16 8 4) (memAt 0 []) 1 0 16)).status = 0x13#32 := by
  decide

/-- Program P3's second command: one block read from SRC and decoded, a 2 by 2 raster left to blit. -/
theorem test_bc2_reads_block :
    pixels (unitStep (accepted (.decodeBc2 0x2000 0x1000 16 2 2) (memAt 0x1000 blockD4))).scratch.tile [0, 1, 4, 5] =
      [[0, 0, 255, 0], [255, 0, 0, 17], [0, 0, 255, 68], [255, 0, 0, 85]] := by decide

/-- V-E5: one byte short. -/
theorem test_bc3_short : (unitStep (accepted (.decodeBc3 0x2000 0x1000 15 4 4) (memAt 0 []))).status = 0x13#32 := by decide

/-- Program P2: pixel (4, 4) of the 5 by 5 raster is tile pixel 0 of block (1, 1). -/
theorem test_bc3_corner_pixel :
    bytesOf (unitStep (decodedAt (.decodeBc3 0x2000 0x1000 64 5 5) (memAt 0 []) 1 1 48 blockD8)).mem 0x2060 4 =
      [85, 170, 0, 12] := by decide

/-- V-E13 and 20_memory.md R39: two refusals. -/
theorem test_refusals :
    commandRefusal (accepted (.decodeBc1 0x2000 0x1000 16 8 4) (memAt 0 [])) 0 0 0 0 0 = some .busy ∧
      commandRefusal State.reset 0x100F 0x1000 16 1 1 = some .overlap := by decide

/-! ### Witnesses: the hypotheses of each statement are met -/

/-- Program P1's command, and those of P2 and P3. -/
def p1 : Instr := .decodeBc1 0x2000 0x1000 16 8 4
def p2 : Instr := .decodeBc3 0x2000 0x1000 64 5 5
def p3 : Instr := .decodeBc2 0x2000 0x1000 16 8 4

/-- Duties from the decision procedure. -/
theorem launchable_of_none {s : State} {i : Instr} (hb : s.isBusy = false)
    (h : regionRefusal s.params i.dst i.src i.len i.width i.height = none) : Launchable s i :=
  ⟨hb, .inr (.inr (hostDuties_of_regionRefusal h))⟩

theorem witness_DecodeEncodeAgree :
    p1.wf Params.default = true ∧
      decode Params.default { cmd := 2#32, width := 2 ^ 32 - 1, height := 0, len := 2 ^ 64 - 1, srcBase := 2 ^ 64 - 1, dstBase := 0 } =
        .ok (.decodeBc3 0 (2 ^ 64 - 1) (2 ^ 64 - 1) (2 ^ 32 - 1) 0) := by decide

theorem witness_StepRunsDecodedCommand :
    (turns [.host (.command (encode p1)), .unit]).pending = .host (.command (encode p1)) :: [.unit] ∧
      decode (turns [.host (.command (encode p1)), .unit]).params (encode p1) = .ok p1 := by decide

/-- VARIANT = 11 with no reserved bit, a reserved bit alone (the lowest and the highest). -/
theorem witness_ReservedCmdRefused :
    (turns [.host (.command { encode p1 with cmd := 3#32 })]).pending =
        .host (.command { encode p1 with cmd := 3#32 }) :: [] ∧
      (3#32).extractLsb' 0 2 = 0b11#2 ∧ (4#32).extractLsb' 2 30 ≠ 0#30 ∧ (0x80000001#32).extractLsb' 2 30 ≠ 0#30 := by decide

theorem witness_LaunchableCommandBegins :
    State.reset.params.wf = true ∧ Launchable State.reset p1 ∧ Launchable State.reset p2 ∧ Launchable State.reset p3 :=
  ⟨by decide, launchable_of_none (by decide) (by decide), launchable_of_none (by decide) (by decide),
    launchable_of_none (by decide) (by decide)⟩

/-- Boundaries: DST ends at the top of the address space, just after SRC; and a command of zero size with any bases. -/
theorem witness_LaunchableCommandBegins_boundary :
    Launchable State.reset (.decodeBc1 (2 ^ 64 - 64) (2 ^ 64 - 72) 8 4 4) ∧
      Launchable State.reset (.decodeBc2 (2 ^ 64) (2 ^ 64) 5 0 3) :=
  ⟨launchable_of_none (by decide) (by decide), by decide, .inl rfl⟩

theorem witness_BusyUnitRefusesCommands : (accepted p1 (memAt 0 [])).stateField = 1#2 := by decide

/-- A 1 by 1 command whose SRC and DST share exactly one address. -/
def overlapping : Instr := .decodeBc1 0x100F 0x1000 16 1 1

theorem witness_OverlappingRegionsRefused :
    State.reset.params.wf = true ∧ State.reset.isBusy = false ∧ overlapping.width ≠ 0 ∧ overlapping.height ≠ 0 ∧
      overlapping.src + overlapping.len ≤ 2 ^ State.reset.params.addrBits ∧
      overlapping.dst + overlapping.width * overlapping.height * 4 ≤ 2 ^ State.reset.params.addrBits ∧
      (∀ b, InRange overlapping.src overlapping.len b →
        ∃ r ∈ State.reset.params.map, r.readable = true ∧ InRange r.base r.size b) ∧
      (∀ b, InRange overlapping.dst (overlapping.width * overlapping.height * 4) b →
        ∃ r ∈ State.reset.params.map, r.writable = true ∧ InRange r.base r.size b) ∧
      InRange overlapping.src overlapping.len 0x100F ∧
      InRange overlapping.dst (overlapping.width * overlapping.height * 4) 0x100F := by
  refine ⟨by decide, by decide, by decide, by decide, by decide, by decide,
    fun b hb => ⟨_, List.mem_singleton_self _, rfl, ?_⟩, fun b hb => ⟨_, List.mem_singleton_self _, rfl, ?_⟩, ?_, ?_⟩ <;>
    simp only [InRange, overlapping, Instr.src, Instr.dst, Instr.len, Instr.width, Instr.height] at * <;> omega

/-- A platform with a gap: readable only below 0x1800, writable only from 0x2000 on. -/
def gapped : State :=
  { State.reset with
    params := { Params.default with
      map := [{ base := 0, size := 0x1800, readable := true, writable := false },
        { base := 0x2000, size := 0x1000, readable := false, writable := true }] } }

/-- One state and command for each clause: SRC one byte past the top, DST likewise, one SRC byte not readable, one DST byte
not writable; and a zero size. -/
theorem witness_UnfitRegionRefused :
    (∃ i : Instr, i.width ≠ 0 ∧ i.height ≠ 0 ∧ 2 ^ State.reset.params.addrBits < i.src + i.len) ∧
      (∃ i : Instr, i.width ≠ 0 ∧ i.height ≠ 0 ∧ 2 ^ State.reset.params.addrBits < i.dst + i.width * i.height * 4) ∧
      (∃ i : Instr, i.width ≠ 0 ∧ i.height ≠ 0 ∧ ∃ a, InRange i.src i.len a ∧
        ∀ r ∈ gapped.params.map, r.readable = true → ¬InRange r.base r.size a) ∧
      (∃ i : Instr, i.width ≠ 0 ∧ i.height ≠ 0 ∧ ∃ a, InRange i.dst (i.width * i.height * 4) a ∧
        ∀ r ∈ gapped.params.map, r.writable = true → ¬InRange r.base r.size a) ∧
      State.reset.isBusy = false :=
  ⟨⟨.decodeBc1 0 (2 ^ 64 - 7) 8 1 1, by decide, by decide, by decide⟩,
    ⟨.decodeBc1 (2 ^ 64 - 3) 0 8 1 1, by decide, by decide, by decide⟩,
    ⟨.decodeBc1 0x2000 0x17F9 8 1 1, by decide, by decide, 0x1800, by simp only [InRange]; decide,
      by simp only [InRange]; decide⟩,
    ⟨.decodeBc1 0x1FFF 0 8 1 1, by decide, by decide, 0x1FFF, by simp only [InRange]; decide,
      by simp only [InRange]; decide⟩, by decide⟩

/-- Zero width and zero height, and the accepted command's step in each turn the unit can move in. -/
theorem witness_ZeroSizeCommandIsDone :
    State.reset.isBusy = false ∧ (Instr.decodeBc1 0 0 0 0 7).width = 0 ∧ (Instr.decodeBc3 0 0 0 7 0).height = 0 ∧
      UnitMoves (accepted (.decodeBc1 0 0 0 0 7) (memAt 0 [])) [] ∧
      (turns [.unit]).isBusy = false ∧ UnitMoves ((turns [.unit]).beginCommand (latchOf (.decodeBc3 0 0 0 7 0))) [] ∧
      UnitMoves ((turns [.host .wait]).beginCommand (latchOf (.decodeBc3 0 0 0 7 0))) [.host .wait] :=
  ⟨by decide, by decide, by decide, .inl ⟨rfl, rfl⟩, by decide, .inr (.inl rfl), .inr (.inr ⟨by decide, rfl, _, rfl⟩)⟩

/-- A state in ERROR: with no turn it stays there, a command or a reset leaves it. -/
theorem witness_ErrorLeftByCommandOrReset :
    (after { State.reset with status := 0x13#32 }).status = 0x13#32 ∧
      (after { turns [.host (.command (encode p1))] with status := 0x13#32 }).status = 1#32 ∧
      (after { turns [.host .reset] with status := 0x13#32 }).status = 0#32 := by decide

theorem witness_ResetStateIsIdle : HostDuties State.reset.params p1 ∧ p1.width ≠ 0 ∧ p1.height ≠ 0 :=
  ⟨hostDuties_of_regionRefusal (by decide), by decide, by decide⟩

/-- Reset of a running command: the first and the last byte of DST, and the bytes next to it. -/
theorem witness_ResetAbortsTheCommand :
    { accepted p1 (memAt 0 []) with pending := [.host .reset] }.isBusy = true ∧
      InRange (latchOf p1).dstBase ((latchOf p1).width * (latchOf p1).height * 4) 0x2000 ∧
      InRange (latchOf p1).dstBase ((latchOf p1).width * (latchOf p1).height * 4) 0x207F ∧
      ¬InRange (latchOf p1).dstBase ((latchOf p1).width * (latchOf p1).height * 4) 0x1FFF ∧
      ¬InRange (latchOf p1).dstBase ((latchOf p1).width * (latchOf p1).height * 4) 0x2080 ∧
      (turns [.host .reset]).isBusy = false := by
  simp only [InRange, latchOf, p1, Instr.dst, Instr.width, Instr.height]
  decide

/-- Each event of the table happens: acceptance, DONE after an empty grid and after a last block, ERROR, reset. -/
theorem witness_StatusTransitionsOnlyAsListed :
    (after (turns [.host (.command (encode p1))])).stateField = 1#2 ∧
      (after (accepted (.decodeBc1 0 0 0 0 7) (memAt 0 []))).stateField = 2#2 ∧
      (after (decodedAt p1 (memAt 0 []) 1 0 8 blockD2)).stateField = 2#2 ∧
      (after (atBlock p3 (memAt 0 []) 1 0 16)).stateField = 3#2 ∧
      (after { accepted p1 (memAt 0 []) with pending := [.host .reset] }).stateField = 0#2 := by decide

/-- A state that is not BUSY and has no work half done is in the invariant, for each of the three STATUS words. -/
theorem inv_quiet {word : Word} (h : word = 0x00000000#32 ∨ word = 0x00000002#32 ∨ word = 0x00000013#32) (l : List Turn) :
    State.Inv { turns l with status := word } where
  params := by show Params.default.wf = true; decide
  status := by tauto
  memForm := rfl
  inSpace := by simp [turns, State.reset]
  fresh := by simp [turns, State.reset]
  latchFits := by show operandsFit Params.default 0 0 0 0 0 = true; decide
  running hb := by
    rw [not_isBusy_of_status h] at hb
    cases hb
  quiet _ := ⟨rfl, rfl⟩

/-- P1 with its second block to be read, and with it decoded, and some turns to come. -/
def readingP1 (l : List Turn) : State := { atBlock p1 (memAt 0x1008 blockD2) 1 0 8 with pending := l }
def blittingP1 (l : List Turn) : State := { decodedAt p1 (memAt 0x1008 blockD2) 1 0 8 blockD2 with pending := l }

theorem inv_readingP1 (l : List Turn) : (readingP1 l).Inv where
  params := by show Params.default.wf = true; decide
  status := .inr (.inl rfl)
  memForm := by show (memAt 0x1008 blockD2).wf = true; decide
  inSpace := by show ∀ c ∈ (memAt 0x1008 blockD2).cells, c.1 < 2 ^ 64; decide
  fresh := ⟨Nat.le_refl 1, by simp [readingP1, atBlock, accepted, State.beginCommand, memAt]⟩
  latchFits := by show operandsFit Params.default 0x2000 0x1000 16 8 4 = true; decide
  running _ :=
    { regions := .inr (.inr (by show regionRefusal Params.default 0x2000 0x1000 16 8 4 = none; decide))
      inGrid := fun _ => by show 1 < gridDim 8 ∧ 0 < gridDim 4; decide
      offset := by show 8 = (0 * gridDim 8 + 1) * Config.blockBytes .A; decide
      decoded := fun h => by cases h }
  quiet h := by
    rw [isBusy_of_status (s := readingP1 l) rfl] at h
    cases h

theorem inv_blittingP1 (l : List Turn) : (blittingP1 l).Inv where
  params := by show Params.default.wf = true; decide
  status := .inr (.inl rfl)
  memForm := by show (memAt 0x1008 blockD2).wf = true; decide
  inSpace := by show ∀ c ∈ (memAt 0x1008 blockD2).cells, c.1 < 2 ^ 64; decide
  fresh := ⟨Nat.le_refl 1, by simp [blittingP1, decodedAt, atBlock, accepted, State.beginCommand, memAt]⟩
  latchFits := by show operandsFit Params.default 0x2000 0x1000 16 8 4 = true; decide
  running _ :=
    { regions := .inr (.inr (by show regionRefusal Params.default 0x2000 0x1000 16 8 4 = none; decide))
      inGrid := fun _ => by show 1 < gridDim 8 ∧ 0 < gridDim 4; decide
      offset := by show 8 = (0 * gridDim 8 + 1) * Config.blockBytes .A; decide
      decoded := fun _ => by show emptyGrid 8 4 = false ∧ 8 + 8 ≤ 16; decide }
  quiet h := by
    rw [isBusy_of_status (s := blittingP1 l) rfl] at h
    cases h

/-- The unit moves in a state with nothing pending, in its own turn, and under WAIT. -/
theorem witness_UnitMoves :
    UnitMoves (readingP1 []) [] ∧ UnitMoves (readingP1 [.unit, .host .wait]) [.host .wait] ∧
      UnitMoves (readingP1 [.host .wait, .unit]) [.host .wait, .unit] ∧ UnitMoves (blittingP1 [.unit]) [] ∧
      UnitMoves (blittingP1 [.host .wait]) [.host .wait] ∧ UnitMoves (turns [.unit]) [] :=
  ⟨.inl ⟨rfl, rfl⟩, .inr (.inl rfl), .inr (.inr ⟨by decide, rfl, _, rfl⟩), .inr (.inl rfl),
    .inr (.inr ⟨by decide, rfl, _, rfl⟩), .inr (.inl rfl)⟩

/-- R100: the unit's own turn decodes a block, or blits the last one and reaches DONE; under WAIT the same, the WAIT
standing. -/
theorem test_unit_turn :
    (after (readingP1 [.unit, .host .wait])).stage = .blit ∧
      (after (readingP1 [.unit, .host .wait])).pending = [.host .wait] ∧
      (after (blittingP1 [.unit])).status = 2#32 ∧
      bytesOf (after (blittingP1 [.unit])).mem 0x2010 8 = [0, 0, 0, 0, 127, 0, 127, 255] ∧
      (after (blittingP1 [.host .wait])).status = 2#32 ∧ (after (blittingP1 [.host .wait])).pending = [.host .wait] := by
  decide

/-- P2's first block decoded, with the host's interference noted and some turns to come: a blit that is not the last. -/
def blittingP2 (l : List Turn) : State := { decodedAt p2 (memAt 0 []) 0 0 0 blockD5 with dstLost := true, pending := l }

/-- R43, R123: a blit that is not the last keeps the interference noted. -/
theorem test_interference_kept :
    (after (blittingP2 [.unit])).status = 1#32 ∧ (after (blittingP2 [.unit])).dstLost = true ∧
      (after (blittingP2 [.unit])).cursor = { col := 1, row := 0, off := 16 } := by decide

/-- A block that ends exactly at L, to be read; a last one, and with interference noted one that is not, to be blitted; and
an empty grid. -/
theorem witness_UnitTurnAdvancesCommand :
    UnitMoves (readingP1 [.unit]) [] ∧ (readingP1 [.unit]).isBusy = true ∧ (readingP1 [.unit]).stage = .read ∧
      (readingP1 [.unit]).latch.width ≠ 0 ∧ (readingP1 [.unit]).latch.height ≠ 0 ∧
      (readingP1 [.unit]).cursor.off + Config.blockBytes (readingP1 [.unit]).latch.variant = (readingP1 [.unit]).latch.len ∧
      UnitMoves (blittingP1 [.host .wait]) [.host .wait] ∧ (blittingP1 [.host .wait]).stage = .blit ∧
      (blittingP1 [.host .wait]).dstLost = false ∧ 1 < gridDim 8 ∧ 0 < gridDim 4 ∧
      0 * gridDim 8 + 1 + 1 = gridDim 8 * gridDim 4 ∧
      UnitMoves (blittingP2 [.unit]) [] ∧ (blittingP2 [.unit]).stage = .blit ∧ (blittingP2 [.unit]).isBusy = true ∧
      (blittingP2 [.unit]).dstLost = true ∧ 0 < gridDim 5 ∧ 0 * gridDim 5 + 0 + 1 ≠ gridDim 5 * gridDim 5 ∧
      UnitMoves (accepted (.decodeBc1 0 0 0 0 7) (memAt 0 [])) [] ∧
      (accepted (.decodeBc1 0 0 0 0 7) (memAt 0 [])).latch.width = 0 :=
  ⟨.inr (.inl rfl), by decide, rfl, by decide, by decide, by decide, .inr (.inr ⟨by decide, rfl, _, rfl⟩), rfl, rfl,
    by decide, by decide, by decide, .inr (.inl rfl), rfl, by decide, rfl, by decide, by decide, .inl ⟨rfl, rfl⟩, rfl⟩

/-- Also for UnitWritesOnlyDst, BusyEndsInBoundedSteps and WaitReturnsFinalStatus. -/
theorem witness_StepKeepsInvariant :
    (readingP1 []).Inv ∧ (blittingP1 []).Inv ∧ (readingP1 []).isBusy = true ∧ (readingP1 []).pending = [] ∧
      (after (readingP1 [])).stage = .blit ∧ (after (blittingP1 [])).status = 2#32 :=
  ⟨inv_readingP1 _, inv_blittingP1 _, by decide, rfl, by decide, by decide⟩

theorem witness_ErrKindExactlyInError :
    State.Inv { turns [] with status := 0x13#32 } ∧ State.Inv { turns [] with status := 2#32 } :=
  ⟨inv_quiet (.inr (.inr rfl)) [], inv_quiet (.inr (.inl rfl)) []⟩

theorem witness_HostAccessToStatus :
    step (turns [.host (.writeStatus 0#32)]) = .refused .statusWrite ∧
      (after { turns [.host .readStatus] with status := 0x13#32 }).readData = 0x13#32 :=
  ⟨rfl, by decide⟩

/-- Two memories that agree on the block's bytes below L and differ just past them: at L = 16 and, for a block that passes
L = 15, at offset 15. -/
theorem witness_OnlyBytesBelowLenAreRead :
    (readingP1 []).stage = .read ∧
      (∀ o, 8 ≤ o → o < 16 → o < 16 →
        ((memAt 0x1008 blockD2).write 0x1010 1).read (0x1000 + o) = (memAt 0x1008 blockD2).read (0x1000 + o)) ∧
      (∀ o, 8 ≤ o → o < 16 → o < 15 →
        ((memAt 0x1008 blockD2).write 0x100F 1).read (0x1000 + o) = (memAt 0x1008 blockD2).read (0x1000 + o)) := by
  refine ⟨rfl, fun o _ ho _ => ?_, fun o _ _ ho => ?_⟩ <;> rw [read_write, if_neg (by omega)]

/-- L one byte short of the block's end, and at its start. -/
theorem witness_ShortBlockRaisesInputTooShort :
    (atBlock (.decodeBc2 0x2000 0x1000 31 8 4) (memAt 0 []) 1 0 16).isBusy = true ∧
      (atBlock (.decodeBc2 0x2000 0x1000 31 8 4) (memAt 0 []) 1 0 16).stage = .read ∧
      (atBlock (.decodeBc2 0x2000 0x1000 31 8 4) (memAt 0 []) 1 0 16).pending = [] ∧
      UnitMoves (atBlock (.decodeBc2 0x2000 0x1000 31 8 4) (memAt 0 []) 1 0 16) [] ∧
      (31 < 16 + Config.blockBytes .B ∧ 16 < 16 + Config.blockBytes .B) ∧
      (step (atBlock (.decodeBc2 0x2000 0x1000 31 8 4) (memAt 0 []) 1 0 16)
        matches .next _) = true :=
  ⟨by decide, by decide, by decide, .inl ⟨rfl, rfl⟩, by decide, by decide⟩

/-- The end of a row is followed by the start of the next. -/
theorem witness_BlocksVisitedInRowMajorOrder :
    (decodedAt p2 (memAt 0 []) 1 0 16 blockD5).isBusy = true ∧ (decodedAt p2 (memAt 0 []) 1 0 16 blockD5).stage = .blit ∧
      UnitMoves (decodedAt p2 (memAt 0 []) 1 0 16 blockD5) [] ∧
      1 < gridDim 5 ∧ 0 < gridDim 5 ∧ 0 * gridDim 5 + 1 + 1 < gridDim 5 * gridDim 5 ∧
      (after (decodedAt p2 (memAt 0 []) 1 0 16 blockD5)).cursor = { col := 0, row := 1, off := 32 } :=
  ⟨by decide, by decide, .inl ⟨rfl, rfl⟩, by decide, by decide, by decide, by decide⟩

theorem witness_UnitWritesOnlyDst :
    (blittingP1 [.unit]).Inv ∧ UnitMoves (blittingP1 [.unit]) [] ∧ (blittingP1 [.unit]).isBusy = true ∧
      0 < (blittingP1 [.unit]).latch.len ∧
      State.Inv { turns [] with status := 2#32 } ∧ ({ turns [] with status := 2#32 } : State).isBusy = false ∧
      ¬InRange 0x2000 (8 * 4 * 4) 0x1FFF ∧ ¬InRange 0x2000 (8 * 4 * 4) 0x2080 := by
  refine ⟨inv_blittingP1 _, .inr (.inl rfl), by decide, by decide, inv_quiet (.inr (.inl rfl)) [], by decide, ?_, ?_⟩ <;>
    simp only [InRange] <;> omega

theorem witness_LatchHeldWhileBusy :
    exec p1 State.reset = .next (State.reset.beginCommand (latchOf p1)) ∧ (readingP1 []).isBusy = true ∧
      (after (readingP1 [])).isBusy = true :=
  ⟨exec_of_launchable (by decide) (launchable_of_none (by decide) (by decide)), by decide, by decide⟩

/-- L = N exactly, for each variant; one byte less fails. -/
theorem witness_DecodeReachesDoneWithRaster :
    State.reset.params.wf = true ∧ State.reset.pending = [] ∧
      Launchable State.reset p1 ∧ requiredLen p1.variant p1.width p1.height = p1.len ∧
      Launchable State.reset p2 ∧ requiredLen p2.variant p2.width p2.height = p2.len ∧
      Launchable State.reset (.decodeBc2 0x2000 0x1000 32 8 4) ∧ requiredLen .B 8 4 = 32 :=
  ⟨by decide, rfl, launchable_of_none (by decide) (by decide), by decide, launchable_of_none (by decide) (by decide),
    by decide, launchable_of_none (by decide) (by decide), by decide⟩

/-- V-E3 and V-E4: one byte short, with three whole blocks before, and no byte at all. -/
theorem witness_ShortInputReachesError :
    State.reset.params.wf = true ∧ State.reset.pending = [] ∧
      Launchable State.reset (.decodeBc3 0x2000 0x1000 63 5 5) ∧ 63 < requiredLen .C 5 5 ∧ 63 / Config.blockBytes .C = 3 ∧
      Launchable State.reset (.decodeBc1 0x2000 0x1000 0 1 1) ∧ 0 < requiredLen .A 1 1 :=
  ⟨by decide, rfl, launchable_of_none (by decide) (by decide), by decide, by decide,
    launchable_of_none (by decide) (by decide), by decide⟩

/-- A BUSY state and one that is not, each with WAIT as its next turn. -/
theorem witness_WaitReturnsFinalStatus :
    (readingP1 [.host .wait, .unit]).Inv ∧ (readingP1 [.host .wait, .unit]).isBusy = true ∧
      (readingP1 [.host .wait, .unit]).pending = .host .wait :: [.unit] ∧
      ({ turns [.host .wait] with status := 0x13#32 } : State).isBusy = false ∧
      (after { turns [.host .wait] with status := 0x13#32 }).readData = 0x13#32 ∧
      (after { turns [.host .wait] with status := 0x13#32 }).pending = [] :=
  ⟨inv_readingP1 _, by decide, rfl, by decide, by decide, by decide⟩

theorem witness_BusyEndsInBoundedSteps :
    (blittingP1 []).Inv ∧ (blittingP1 []).isBusy = true ∧ (blittingP1 []).pending = [] :=
  ⟨inv_blittingP1 _, by decide, rfl⟩

theorem witness_MemoryNeverSteersTheUnit : step (readingP1 []) = .next (unitStep (readingP1 [])) := rfl

/-- An idle machine whose latch, cursor and tile hold something else; a running one whose palette does. -/
theorem witness_HiddenStateNeverObserved :
    SameToHost State.reset
        { State.reset with
          latch := latchOf p1
          cursor := { col := 3, row := 4, off := 5 }
          scratch := decodeBlockA blockD2 State.reset.scratch } ∧
      SameToHost (readingP1 []) { readingP1 [] with scratch := decodeBlockA blockD2 State.reset.scratch } := by
  constructor
  · refine ⟨rfl, rfl, rfl, rfl, rfl, rfl, rfl, rfl, fun h => ?_, fun h => ?_, fun h => ?_⟩ <;>
      exact absurd h (by decide)
  · exact ⟨rfl, rfl, rfl, rfl, rfl, rfl, rfl, rfl, fun _ => rfl, fun _ => rfl, fun _ h => by cases h⟩

/-- A memory in canonical form; the first and last byte of a lost range and the bytes next to it. -/
theorem witness_MemoryOperationsRoundTrip :
    (memAt 0x1008 blockD2).wf = true ∧ ¬(16 ≤ 15 ∧ 15 < 16 + 4) ∧ (16 ≤ 16 ∧ 16 < 16 + 4) ∧ (16 ≤ 19 ∧ 19 < 16 + 4) ∧
      ¬(16 ≤ 20 ∧ 20 < 16 + 4) := by decide

/-- A write while P1 runs, to the last byte of SRC, the first of DST and the byte between; and where the map has a gap, the
last address of a region, the first past it, and the first past the top. -/
theorem witness_HostWriteStoresOneByte :
    plainAt Params.default 0x100F = true ∧ plainAt Params.default (2 ^ 64 - 1) = true ∧
      (after (readingP1 [.host (.writeMem 0x100F 1)])).dstLost = true ∧
      (after (readingP1 [.host (.writeMem 0x1010 1)])).dstLost = false ∧
      (after (readingP1 [.host (.writeMem 0x2000 1)])).dstLost = true ∧
      plainAt gapped.params 0x17FF = true ∧ plainAt gapped.params 0x1800 = false ∧
      (∀ r ∈ gapped.params.map, ¬InRange r.base r.size 0x1800) ∧ 2 ^ Params.default.addrBits ≤ 2 ^ 64 :=
  ⟨by decide, by decide, by decide, by decide, by decide, by decide, by decide, by simp only [InRange]; decide, by decide⟩

/-- Log 20: an access outside plain memory is refused. -/
theorem test_not_plain_refused :
    step { gapped with pending := [.host (.writeMem 0x1800 1)] } = .refused .notPlainMemory ∧
      step (turns [.host (.readMem (2 ^ 64))]) = .refused .notPlainMemory :=
  ⟨rfl, rfl⟩

theorem witness_InterferedCommandLosesDst :
    ({ blittingP1 [.unit] with dstLost := true } : State).isBusy = true ∧
      UnitMoves { blittingP1 [.unit] with dstLost := true } [] ∧
      ({ blittingP1 [.unit] with dstLost := true } : State).dstLost = true ∧ 1 < gridDim 8 ∧
      (after { blittingP1 [.unit] with dstLost := true }).status = 2#32 :=
  ⟨by decide, .inr (.inl rfl), rfl, by decide, by decide⟩

/-- A read while P1 runs, of the last byte of DST and of the byte after it. -/
theorem witness_HostReadReturnsByte :
    plainAt Params.default 0x207F = true ∧
      (after (readingP1 [.host (.readMem 0x207F)])).draws = 2 ∧ (after (readingP1 [.host (.readMem 0x2080)])).draws = 1 ∧
      (after (readingP1 [.host (.readMem 0x100B)])).readData = 0xF8#32 := by decide

/-- The three orders of the endpoints, for the palettes and the alpha table. -/
theorem witness_PaletteEntries :
    (0x001F#16).toNat < (0xF800#16).toNat ∧ (0x8410#16).toNat ≤ (0x8410#16).toNat ∧
      (0x1234#16).toNat ≤ (0x5678#16).toNat ∧ (127#8).toNat < (128#8).toNat ∧ (7#8).toNat ≤ (7#8).toNat := by decide

/-- Blocks of the lengths the field statements ask for; an even and an odd pixel, and the last ones. -/
theorem witness_BlockFields :
    8 ≤ blockD2.length ∧ 6 + 2 ≤ blockD2.length ∧ 4 + 4 ≤ blockD2.length ∧ 12 + 4 ≤ blockD4.length ∧ 16 = blockD5.length ∧
      byteAt blockD5 0 = 0xFF ∧ byteAt blockD8 1 = 0x14 ∧ byteAt blockD8 15 = 0x00 ∧ (alphaTableB blockD4).get 14 = 238 ∧ (alphaTableB blockD4).get 15 = 255 ∧ (15 : Nat) < 16 := by decide

/-- The first column, and the last column of rasters 1, 4 and 5 wide; the last row of one 5 high. -/
theorem witness_ValidWidthClipsLastColumn :
    0 < gridDim 1 ∧ 0 < gridDim 4 ∧ 1 < gridDim 5 ∧ 0 < gridDim 5 := by decide

/-- Pixel (4, 4) of a 5 by 5 raster lies in block (1, 1); byte 92 of DST is no byte of that block. -/
theorem witness_BlitPlacesTilePixels :
    1 < gridDim 5 ∧ (4 < 5 ∧ 3 < 4 ∧ 4 / 4 = 1) ∧
      (∀ x y c, x < 5 → y < 5 → c < 4 → x / 4 = 1 → y / 4 = 1 → 0x205C ≠ 0x2000 + ((y * 5 + x) * 4 + c)) := by
  refine ⟨by decide, by decide, fun x y c hx hy hc h1 h2 => ?_⟩
  omega

theorem witness_BlockOrderDoesNotMatter : (gridBlocks 5 5).reverse.Perm (gridBlocks 5 5) :=
  List.reverse_perm _

end Sys2Proof.Tests
end

namespace Sys2Proof.Machine

/-! Every step keeps the invariant: what each update of the state keeps of it, then the turns one by one. -/

/-! ### The memory the invariant speaks of -/

/-- What the invariant says of memory and of the next draw: canonical form, inside the address space, the draw fresh. -/
structure MemoryFits (p : Params) (m : Memory) (draws : Nat) : Prop where
  form : m.wf = true
  inSpace : ∀ c ∈ m.cells, c.1 < 2 ^ p.addrBits
  pos : 1 ≤ draws
  fresh : ∀ r ∈ m.lost, 1 ≤ r.draw ∧ r.draw < draws

theorem State.Inv.memoryFits {s : State} (h : s.Inv) : MemoryFits s.params s.mem s.draws :=
  ⟨h.memForm, h.inSpace, h.fresh.1, h.fresh.2⟩

/-- Taking a draw leaves the next one fresh. -/
theorem MemoryFits.succ {p : Params} {m : Memory} {draws : Nat} (h : MemoryFits p m draws) :
    MemoryFits p m (draws + 1) :=
  { h with pos := Nat.le_add_left .., fresh := fun r hr => ⟨(h.fresh r hr).1, Nat.lt_succ_of_lt (h.fresh r hr).2⟩ }

theorem MemoryFits.write {p : Params} {m : Memory} {draws a : Nat} (h : MemoryFits p m draws)
    (ha : a < 2 ^ p.addrBits) (v : Byte) : MemoryFits p (m.write a v) draws where
  form := write_wf a v h.form
  inSpace c hc := by
    rcases mem_setCell hc with rfl | hc
    · exact ha
    · exact h.inSpace c hc
  pos := h.pos
  fresh := h.fresh

/-- A loss takes the next draw. -/
theorem MemoryFits.lose {p : Params} {m : Memory} {draws : Nat} (h : MemoryFits p m draws) (base size : Nat) :
    MemoryFits p (m.lose base size draws) (draws + 1) where
  form := lose_wf base size draws h.form
  inSpace c hc := h.inSpace c (lose_cells_subset hc)
  pos := Nat.le_add_left ..
  fresh r hr := by
    rcases mem_lose_lost hr with hr | hr
    · have := h.pos
      omega
    · exact h.succ.fresh r hr

/-- A blit stays in the address space when the DST region does. -/
theorem MemoryFits.blit {p : Params} {m : Memory} {draws dst w h col row : Nat} (hm : MemoryFits p m draws)
    (hcol : col < gridDim w) (htop : dst + rasterBytes w h ≤ 2 ^ p.addrBits) (tile : Vector Byte 64) :
    MemoryFits p (blit m dst w h col row tile) draws where
  form := blit_wf hm.form
  inSpace c hc := by
    rcases mem_blit_cells hcol hc with ⟨-, hc⟩ | hc
    · omega
    · exact hm.inSpace c hc
  pos := hm.pos
  fresh r hr := hm.fresh r (blit_lost m dst w h col row tile ▸ hr)

/-! ### Latches and regions -/

/-- Registers of any value still hold no more than they can. -/
theorem freeLatch_fits (p : Params) (draw : Nat) :
    operandsFit p (freeLatch p draw).dstBase (freeLatch p draw).srcBase (freeLatch p draw).len
      (freeLatch p draw).width (freeLatch p draw).height = true := by
  simp [operandsFit, freeLatch, Nat.mod_lt]

/-- A command the decoder reads from a descriptor has operands that fit its fields (30_encoding.md R46). -/
theorem decode_operandsFit {p : Params} {d : Descriptor} {i : Instr} (h : decode p d = .ok i) :
    operandsFit p i.dst i.src i.len i.width i.height = true := by
  unfold decode at h
  split at h
  · cases h
  · rename_i v _
    split at h
    · cases h
      cases v <;> assumption
    · cases h

/-- An accepted command is of zero size, or nothing is wrong with its regions (70_reset_and_hazards.md R125). -/
theorem regions_of_commandRefusal {s : State} {dst src len width height : Nat}
    (h : commandRefusal s dst src len width height = none) :
    width = 0 ∨ height = 0 ∨ regionRefusal s.params dst src len width height = none := by
  unfold commandRefusal at h
  split at h
  · cases h
  · split at h
    · tauto
    · exact .inr (.inr h)

theorem dstTop_of_regionRefusal {p : Params} {dst src len width height : Nat}
    (h : regionRefusal p dst src len width height = none) : dst + rasterBytes width height ≤ 2 ^ p.addrBits :=
  (hostDuties_of_regionRefusal (i := .decodeBc1 dst src len width height) h).dstTop

/-! ### Updates that keep the invariant -/

/-- The command running in a state runs in any state with the same command fields. -/
theorem State.Running.congr {s t : State} (h : s.Running) (hp : t.params = s.params) (hl : t.latch = s.latch)
    (hc : t.cursor = s.cursor) (hst : t.stage = s.stage) : t.Running := by
  obtain ⟨hreg, hgrid, hoff, hdec⟩ := h
  constructor <;> rw [hl] <;> simp only [hp, hc, hst] <;> assumption

/-- What touches only memory, draws, the turns to come and the host's data keeps the invariant when memory still fits and
the interference mark stays as it is in a unit that is not BUSY. -/
theorem State.Inv.of_same_command {s t : State} (h : s.Inv) (hp : t.params = s.params) (hs : t.status = s.status)
    (hl : t.latch = s.latch) (hc : t.cursor = s.cursor) (hst : t.stage = s.stage)
    (hd : s.isBusy = false → t.dstLost = s.dstLost) (hm : MemoryFits s.params t.mem t.draws) : t.Inv where
  params := hp ▸ h.params
  status := hs ▸ h.status
  memForm := hm.form
  inSpace := hp ▸ hm.inSpace
  fresh := ⟨hm.pos, hm.fresh⟩
  latchFits := by
    rw [hp, hl]
    exact h.latchFits
  running hb := (h.running (isBusy_congr hs ▸ hb)).congr hp hl hc hst
  quiet hb := by
    have hb' : s.isBusy = false := isBusy_congr hs ▸ hb
    rw [hst, hd hb']
    exact h.quiet hb'

theorem popped_inv {s : State} (h : s.Inv) (rest : List Turn) : (s.popped rest).Inv :=
  h.of_same_command rfl rfl rfl rfl rfl (fun _ => rfl) h.memoryFits

theorem hostReadStatus_inv {s : State} (h : s.Inv) : (hostReadStatus s).Inv :=
  h.of_same_command rfl rfl rfl rfl rfl (fun _ => rfl) h.memoryFits

theorem afterReadMem_inv {s : State} (h : s.Inv) (a : Nat) : (s.afterReadMem a).Inv := by
  unfold State.afterReadMem
  split
  · exact h.of_same_command rfl rfl rfl rfl rfl (fun _ => rfl) h.memoryFits.succ
  · exact h.of_same_command rfl rfl rfl rfl rfl (fun _ => rfl) h.memoryFits

theorem afterWriteMem_inv {s : State} {a : Nat} (h : s.Inv) (ha : plainAt s.params a = true) (v : Byte) :
    (s.afterWriteMem a v).Inv :=
  h.of_same_command rfl rfl rfl rfl rfl (fun hb => by simp [State.afterWriteMem, hb])
    (h.memoryFits.write ((plainAt_iff ..).1 ha).1 v)

/-- However a command ends, the unit is quiet and nothing of the command is left. -/
theorem endCommand_inv {s : State} {word : Word} (hp : s.params.wf = true) (hm : MemoryFits s.params s.mem s.draws)
    (hw : word = 0x00000000#32 ∨ word = 0x00000002#32 ∨ word = 0x00000013#32) (lost : Bool) :
    (s.endCommand word lost).Inv := by
  have hm' : MemoryFits s.params (s.endCommand word lost).mem (s.draws + 1) := by
    rw [endCommand_mem]
    split
    · exact hm.lose ..
    · exact hm.succ
  have hquiet : (s.endCommand word lost).isBusy = false := not_isBusy_of_status hw
  exact
    { params := hp
      status := by rw [endCommand_status]; tauto
      memForm := hm'.form
      inSpace := hm'.inSpace
      fresh := ⟨hm'.pos, hm'.fresh⟩
      latchFits := freeLatch_fits ..
      running := fun hb => by simp [hquiet] at hb
      quiet := fun _ => ⟨rfl, rfl⟩ }

theorem finish_inv {s : State} (hp : s.params.wf = true) (hm : MemoryFits s.params s.mem s.draws) : s.finish.Inv :=
  endCommand_inv hp hm (by simp) _

theorem raiseInputTooShort_inv {s : State} (h : s.Inv) : s.raiseInputTooShort.Inv :=
  endCommand_inv h.params h.memoryFits (by simp) _

theorem assertReset_inv {s : State} (h : s.Inv) : s.assertReset.Inv :=
  endCommand_inv h.params h.memoryFits (by simp) _

/-- An accepted command runs, with its cursor at the first block (45_blit_and_commands.md R100). -/
theorem beginCommand_inv {s : State} {i : Instr} (h : s.Inv)
    (hfit : operandsFit s.params i.dst i.src i.len i.width i.height = true)
    (hreg : i.width = 0 ∨ i.height = 0 ∨ regionRefusal s.params i.dst i.src i.len i.width i.height = none) :
    (s.beginCommand (latchOf i)).Inv where
  params := h.params
  status := by simp
  memForm := h.memForm
  inSpace := h.inSpace
  fresh := h.fresh
  latchFits := hfit
  running _ :=
    { regions := hreg
      inGrid := (emptyGrid_eq_false_iff ..).1
      offset := by simp [Cursor.first]
      decoded := fun hst => by simp at hst }
  quiet hb := by simp at hb

/-! ### The unit's steps -/

/-- A block within L is decoded (60_exceptions.md R107). -/
theorem afterRead_inv {s : State} (h : s.Inv) (hb : s.isBusy = true)
    (he : emptyGrid s.latch.width s.latch.height = false)
    (hl : s.cursor.off + Config.blockBytes s.latch.variant ≤ s.latch.len) : s.afterRead.Inv where
  params := h.params
  status := h.status
  memForm := h.memForm
  inSpace := h.inSpace
  fresh := h.fresh
  latchFits := h.latchFits
  running _ := { (h.running hb).congr (t := { s.afterRead with stage := s.stage }) rfl rfl rfl rfl with
    decoded := fun _ => ⟨he, hl⟩ }
  quiet hb' := nomatch hb.symm.trans hb'

/-- The blit of a decoded block writes inside the address space: its grid has blocks, so its DST region was judged. -/
theorem blitted_fits {s : State} (h : s.Inv) (hb : s.isBusy = true) (hst : s.stage = .blit) :
    MemoryFits s.params s.blitted s.draws := by
  have hrun := h.running hb
  obtain ⟨he, -⟩ := hrun.decoded hst
  have hne : ¬(s.latch.width = 0 ∨ s.latch.height = 0) := by
    rw [← emptyGrid_eq_true_iff, he]
    simp
  have hreg : regionRefusal s.params s.latch.dstBase s.latch.srcBase s.latch.len s.latch.width s.latch.height = none := by
    have := hrun.regions
    tauto
  exact h.memoryFits.blit (hrun.inGrid he).1 (dstTop_of_regionRefusal hreg) _

/-- After a blit that is not the last, the cursor stands at the next block of the grid (45_blit_and_commands.md R97). -/
theorem afterBlit_inv {s : State} (h : s.Inv) (hb : s.isBusy = true) (hst : s.stage = .blit)
    (hlast : s.cursor.isLast s.latch.width s.latch.height = false) : s.afterBlit.Inv := by
  have hrun := h.running hb
  obtain ⟨hcol, hrow⟩ := hrun.inGrid (hrun.decoded hst).1
  obtain ⟨hcol', hrow', hindex, hoff⟩ := advance_index hcol hrow hlast (Config.blockBytes s.latch.variant)
  have hm := (blitted_fits h hb hst).succ
  exact
    { params := h.params
      status := h.status
      memForm := hm.form
      inSpace := hm.inSpace
      fresh := ⟨hm.pos, hm.fresh⟩
      latchFits := h.latchFits
      running := fun _ =>
        { regions := hrun.regions
          inGrid := fun _ => ⟨hcol', hrow'⟩
          offset := hoff.trans (by rw [hrun.offset, ← Nat.add_one_mul, ← hindex]; rfl)
          decoded := nofun }
      quiet := fun hb' => nomatch hb.symm.trans hb' }

/-- Each of the things a BUSY unit can do keeps the invariant. -/
theorem unitStep_inv {s : State} (h : s.Inv) (hb : s.isBusy = true) : (unitStep s).Inv := by
  obtain ⟨-, -, hu⟩ | ⟨-, -, -, hu⟩ | ⟨-, he, hl, hu⟩ | ⟨hst, -, hu⟩ | ⟨hst, hlast, hu⟩ := unitStep_cases s <;> rw [hu]
  · exact finish_inv h.params h.memoryFits
  · exact raiseInputTooShort_inv h
  · exact afterRead_inv h hb he hl
  · exact finish_inv h.params (blitted_fits h hb hst)
  · exact afterBlit_inv h hb hst hlast

theorem unitTurn_inv {s : State} (h : s.Inv) : (unitTurn s).Inv := by
  unfold unitTurn
  split
  · exact unitStep_inv h ‹_›
  · exact h

/-- Settles O18: the invariant is kept by whatever turn comes next. -/
theorem stepKeepsInvariant : Obligations.StepKeepsInvariant := by
  intro s t h hstep
  obtain ⟨-, rfl⟩ | ⟨rest, -, rfl⟩ | ⟨d, rest, i, -, hdec, hacc, rfl⟩ | ⟨rest, -, rfl⟩ | ⟨a, rest, -, -, rfl⟩ |
    ⟨a, v, rest, -, ha, rfl⟩ | ⟨rest, -, ⟨hb, rfl⟩ | ⟨-, rfl⟩⟩ | ⟨rest, -, rfl⟩ := step_cases hstep
  · exact unitTurn_inv h
  · exact unitTurn_inv (popped_inv h rest)
  · exact beginCommand_inv (popped_inv h rest) (decode_operandsFit hdec) (regions_of_commandRefusal hacc)
  · exact hostReadStatus_inv (popped_inv h rest)
  · exact afterReadMem_inv (popped_inv h rest) a
  · exact afterWriteMem_inv (popped_inv h rest) ha v
  · exact unitStep_inv h hb
  · exact hostReadStatus_inv (popped_inv h rest)
  · exact assertReset_inv (popped_inv h rest)

end Sys2Proof.Machine

namespace Sys2Proof.Machine

/-! Host memory's two operations, read back. -/

/-- After a loss, a byte of the range is the free byte of the draw and every other byte is as before. -/
theorem read_lose (m : Memory) (base size draw a : Nat) :
    (m.lose base size draw).read a =
      if base ≤ a ∧ a < base + size then Config.freeByte draw a else m.read a := by
  split
  · exact read_lose_inside ‹_›
  · exact read_lose_outside ‹_›

/-- Settles O31, from the laws of memory. -/
theorem memoryOperationsRoundTrip : Obligations.MemoryOperationsRoundTrip :=
  ⟨read_write, read_lose, fun _ a v hm => write_wf a v hm, fun _ base size draw hm => lose_wf base size draw hm⟩

end Sys2Proof.Machine

namespace Sys2Proof.Machine

/-! LANES is read by nothing (log 17): each operation of the machine commutes with changing it. -/

/-! ### What does not see LANES -/

@[simp] theorem withLanes_stage (s : State) (n : Nat) : (s.withLanes n).stage = s.stage := rfl
@[simp] theorem withLanes_isBusy (s : State) (n : Nat) : (s.withLanes n).isBusy = s.isBusy := rfl
@[simp] theorem withLanes_inDst (s : State) (n a : Nat) : (s.withLanes n).inDst a = s.inDst a := rfl

theorem popped_withLanes (s : State) (n : Nat) (rest : List Turn) :
    (s.withLanes n).popped rest = (s.popped rest).withLanes n := rfl

theorem commandRefusal_withLanes (s : State) (n dst src len width height : Nat) :
    commandRefusal (s.withLanes n) dst src len width height = commandRefusal s dst src len width height := rfl

theorem plainAt_withLanes (s : State) (n a : Nat) : plainAt (s.withLanes n).params a = plainAt s.params a := rfl

/-! ### What commutes with changing LANES -/

theorem readStep_withLanes (s : State) (n : Nat) : readStep (s.withLanes n) = (readStep s).withLanes n := by
  rw [readStep, readStep, apply_ite (State.withLanes · n), apply_ite (State.withLanes · n)]
  rfl

theorem blitStep_withLanes (s : State) (n : Nat) : blitStep (s.withLanes n) = (blitStep s).withLanes n := by
  rw [blitStep, blitStep, apply_ite (State.withLanes · n)]
  rfl

theorem unitStep_withLanes (s : State) (n : Nat) : unitStep (s.withLanes n) = (unitStep s).withLanes n := by
  unfold unitStep
  rw [withLanes_stage]
  cases s.stage with
  | read => exact readStep_withLanes s n
  | blit => exact blitStep_withLanes s n

theorem unitTurn_withLanes (s : State) (n : Nat) : unitTurn (s.withLanes n) = (unitTurn s).withLanes n := by
  unfold unitTurn
  rw [withLanes_isBusy, unitStep_withLanes]
  split <;> rfl

theorem hostWait_withLanes (s : State) (n : Nat) (rest : List Turn) :
    hostWait rest (s.withLanes n) = (hostWait rest s).withLanes n := by
  unfold hostWait
  rw [withLanes_isBusy, unitStep_withLanes]
  split <;> rfl

theorem afterReadMem_withLanes (s : State) (n a : Nat) :
    (s.withLanes n).afterReadMem a = (s.afterReadMem a).withLanes n := by
  unfold State.afterReadMem
  rw [withLanes_isBusy, withLanes_inDst]
  split <;> rfl

/-! ### One step -/

/-- Two outcomes are the same up to the number of LANES, which the second one has. -/
abbrev SameButLanes (n : Nat) (o o' : Host.Outcome State Fault Refusal) : Prop :=
  SameOutcome (fun t t' => t' = t.withLanes n) o o'

theorem hostReadMem_withLanes (s : State) (n a : Nat) :
    SameButLanes n (hostReadMem a s) (hostReadMem a (s.withLanes n)) := by
  cases hp : plainAt s.params a with
  | false =>
    rw [hostReadMem_refused hp, hostReadMem_refused ((plainAt_withLanes ..).trans hp)]
    exact rfl
  | true =>
    rw [hostReadMem_eq hp, hostReadMem_eq ((plainAt_withLanes ..).trans hp)]
    exact afterReadMem_withLanes s n a

theorem hostWriteMem_withLanes (s : State) (n a : Nat) (v : Byte) :
    SameButLanes n (hostWriteMem a v s) (hostWriteMem a v (s.withLanes n)) := by
  cases hp : plainAt s.params a with
  | false =>
    rw [hostWriteMem_refused hp, hostWriteMem_refused ((plainAt_withLanes ..).trans hp)]
    exact rfl
  | true =>
    rw [hostWriteMem_eq hp, hostWriteMem_eq ((plainAt_withLanes ..).trans hp)]
    exact rfl

/-- Settles O30: turn by turn, what the machine does commutes with changing LANES. -/
theorem lanesNotObservable : Obligations.LanesNotObservable := by
  intro s n
  show SameButLanes n (step s) (step (s.withLanes n))
  rcases hp : s.pending with _ | ⟨_ | op, rest⟩
  · rw [step_nil hp, step_nil (s := s.withLanes n) hp]
    exact unitTurn_withLanes s n
  · rw [step_unit hp, step_unit (s := s.withLanes n) hp]
    exact unitTurn_withLanes (s.popped rest) n
  cases op with
  | command d =>
    cases hd : decode s.params d with
    | error r =>
      rw [step_command_refused hp hd, step_command_refused (s := s.withLanes n) hp hd]
      exact rfl
    | ok i =>
      rw [step_command_decoded hp hd, step_command_decoded (s := s.withLanes n) hp hd, popped_withLanes,
        commandRefusal_withLanes]
      cases commandRefusal (s.popped rest) i.dst i.src i.len i.width i.height with
      | some r => exact rfl
      | none => exact rfl
  | readStatus =>
    rw [step_readStatus hp, step_readStatus (s := s.withLanes n) hp]
    exact rfl
  | writeStatus v =>
    rw [step_writeStatus hp, step_writeStatus (s := s.withLanes n) hp]
    exact rfl
  | readMem a =>
    rw [step_readMem hp, step_readMem (s := s.withLanes n) hp]
    exact hostReadMem_withLanes (s.popped rest) n a
  | writeMem a v =>
    rw [step_writeMem hp, step_writeMem (s := s.withLanes n) hp]
    exact hostWriteMem_withLanes (s.popped rest) n a v
  | wait =>
    rw [step_wait hp, step_wait (s := s.withLanes n) hp]
    exact hostWait_withLanes s n rest
  | reset =>
    rw [step_reset hp, step_reset (s := s.withLanes n) hp]
    exact rfl

end Sys2Proof.Machine

namespace Sys2Proof.Machine

/-! The unit's steps and one step of the machine, in the terms of STATUS, the latch and memory (10_state.md R17 to R30). -/

/-! ### STATUS and its fields -/

theorem isBusy_iff (s : State) : s.isBusy = true ↔ s.stateField = 1#2 := by
  simp [State.isBusy, UnitState.code]

theorem stateField_congr {s t : State} (h : s.status = t.status) : s.stateField = t.stateField := by
  simp only [State.stateField, h]

@[simp] theorem beginCommand_stateField (s : State) (l : Latch) : (s.beginCommand l).stateField = 1#2 :=
  (isBusy_iff _).1 (beginCommand_isBusy s l)

@[simp] theorem finish_stateField (s : State) : s.finish.stateField = 2#2 := by
  rw [State.stateField, finish_status]
  decide

@[simp] theorem raiseInputTooShort_stateField (s : State) : s.raiseInputTooShort.stateField = 3#2 := by
  rw [State.stateField, raiseInputTooShort_status]
  decide

@[simp] theorem assertReset_stateField (s : State) : s.assertReset.stateField = 0#2 := by
  rw [State.stateField, assertReset_status]
  decide

/-- Settles O15: the four STATUS words of the invariant, one by one. -/
theorem errKindExactlyInError : Obligations.ErrKindExactlyInError := by
  intro s h
  rcases h.status with hs | hs | hs | hs <;> simp only [State.errKindField, State.stateField, hs] <;> decide

/-- Settles O16, from what the two turns are. -/
theorem hostAccessToStatus : Obligations.HostAccessToStatus :=
  ⟨fun _ _ _ => step_writeStatus, fun _ _ => step_readStatus⟩

/-! ### The reset state (R29) -/

theorem reset_params_wf : State.reset.params.wf = true := by decide

theorem reset_isBusy : State.reset.isBusy = false :=
  not_isBusy_of_status (.inl rfl)

/-- Settles O12: the reset state is not BUSY, so what is launchable begins. -/
theorem resetStateIsIdle : Obligations.ResetStateIsIdle :=
  ⟨rfl, rfl, rfl, fun i hi => ⟨_, exec_of_launchable reset_params_wf ⟨reset_isBusy, hi⟩, by simp⟩⟩

/-- Settles O17: nothing runs and memory lists nothing. -/
theorem resetStateInInvariant : Obligations.ResetStateInInvariant where
  params := reset_params_wf
  status := .inl rfl
  memForm := rfl
  inSpace := nofun
  fresh := ⟨Nat.le_refl 1, nofun⟩
  latchFits := by decide
  running hb := nomatch reset_isBusy.symm.trans hb
  quiet _ := ⟨rfl, rfl⟩

/-! ### The unit's turn -/

theorem unitTurn_of_busy {s : State} (hb : s.isBusy = true) : unitTurn s = unitStep s :=
  if_pos hb

theorem unitTurn_of_not_busy {s : State} (hb : s.isBusy = false) : unitTurn s = s :=
  if_neg (by simp [hb])

@[simp] theorem unitTurn_pending (s : State) : (unitTurn s).pending = s.pending := by
  unfold unitTurn
  split
  · exact (unitStep_host_fields s).2.1
  · rfl

/-- What the unit's turn does to STATUS (R18): nothing, or DONE after an empty grid or a last block, or ERROR at a block
that passes L. -/
theorem unitTurn_status (s : State) :
    (unitTurn s).status = s.status ∨
    (s.stateField = 1#2 ∧ (unitTurn s).stateField = 2#2 ∧
      (emptyGrid s.latch.width s.latch.height = true ∨
        s.stage = .blit ∧ s.cursor.isLast s.latch.width s.latch.height = true)) ∨
    (s.stateField = 1#2 ∧ (unitTurn s).stateField = 3#2 ∧ s.stage = .read ∧
      s.latch.len < s.cursor.off + Config.blockBytes s.latch.variant) := by
  cases hb : s.isBusy with
  | false => exact .inl (by rw [unitTurn_of_not_busy hb])
  | true =>
    have hbusy := (isBusy_iff s).1 hb
    rw [unitTurn_of_busy hb]
    obtain ⟨-, he, hu⟩ | ⟨hst, -, hl, hu⟩ | ⟨-, -, -, hu⟩ | ⟨hst, hlast, hu⟩ | ⟨-, -, hu⟩ := unitStep_cases s <;> rw [hu]
    · exact .inr (.inl ⟨hbusy, by simp, .inl he⟩)
    · exact .inr (.inr ⟨hbusy, by simp, hst, hl⟩)
    · exact .inl rfl
    · exact .inr (.inl ⟨hbusy, by simp, .inr ⟨hst, hlast⟩⟩)
    · exact .inl rfl

/-- A unit's turn that leaves the unit BUSY keeps the latch (R20). -/
theorem unitTurn_latch_of_busy {s : State} (hb : (unitTurn s).isBusy = true) : (unitTurn s).latch = s.latch := by
  cases hs : s.isBusy with
  | false => rw [unitTurn_of_not_busy hs]
  | true =>
    rw [unitTurn_of_busy hs] at hb ⊢
    obtain ⟨-, -, hu⟩ | ⟨-, -, -, hu⟩ | ⟨-, -, -, hu⟩ | ⟨-, -, hu⟩ | ⟨-, -, hu⟩ := unitStep_cases s <;> rw [hu] at hb ⊢
    · simp at hb
    · simp at hb
    · rfl
    · simp at hb
    · rfl

/-! ### What a step does to the command -/

theorem afterReadMem_status_latch (s : State) (a : Nat) :
    (s.afterReadMem a).status = s.status ∧ (s.afterReadMem a).latch = s.latch := by
  unfold State.afterReadMem
  split <;> exact ⟨rfl, rfl⟩

/-- A step is the unit's turn, or the acceptance of a command by a unit that is not BUSY, or reset, or an act of the host
that leaves STATUS and the latch alone. -/
theorem step_command_effect {s t : State} (h : step s = .next t) :
    (∃ rest, t = unitTurn (s.popped rest)) ∨
    (∃ d rest i, s.pending = .host (.command d) :: rest ∧ decode s.params d = .ok i ∧ s.isBusy = false ∧
      t = (s.popped rest).beginCommand (latchOf i)) ∨
    (∃ rest, s.pending = .host .reset :: rest ∧ t = (s.popped rest).assertReset) ∨
    (t.status = s.status ∧ t.latch = s.latch) := by
  obtain ⟨-, rfl⟩ | ⟨rest, -, rfl⟩ | ⟨d, rest, i, hp, hd, hacc, rfl⟩ | ⟨rest, -, rfl⟩ | ⟨a, rest, -, -, rfl⟩ |
    ⟨a, v, rest, -, -, rfl⟩ | ⟨rest, -, ⟨hb, rfl⟩ | ⟨-, rfl⟩⟩ | ⟨rest, hp, rfl⟩ := step_cases h
  · exact .inl ⟨s.pending, rfl⟩
  · exact .inl ⟨rest, rfl⟩
  · exact .inr (.inl ⟨d, rest, i, hp, hd, (launchable_of_commandRefusal hacc).1, rfl⟩)
  · exact .inr (.inr (.inr ⟨rfl, rfl⟩))
  · exact .inr (.inr (.inr (afterReadMem_status_latch (s.popped rest) a)))
  · exact .inr (.inr (.inr ⟨rfl, rfl⟩))
  · exact .inl ⟨s.pending, (unitTurn_of_busy hb).symm⟩
  · exact .inr (.inr (.inr ⟨rfl, rfl⟩))
  · exact .inr (.inr (.inl ⟨rest, hp, rfl⟩))

/-- Settles O14: each kind of step is a row of the table, or leaves STATUS alone. -/
theorem statusTransitionsOnlyAsListed : Obligations.StatusTransitionsOnlyAsListed := by
  intro s t h
  obtain ⟨rest, rfl⟩ | ⟨d, rest, i, hp, hd, hb, rfl⟩ | ⟨rest, hp, rfl⟩ | ⟨hs, -⟩ := step_command_effect h
  · rcases unitTurn_status (s.popped rest) with hu | hu | hu
    · exact .inl hu
    · exact .inr (.inr (.inr (.inl hu)))
    · exact .inr (.inr (.inr (.inr hu)))
  · have hidle : s.stateField ≠ 1#2 := fun hs => nomatch hb.symm.trans ((isBusy_iff s).2 hs)
    exact .inr (.inr (.inl ⟨hidle, by simp, d, rest, i, hp, hd, rfl⟩))
  · exact .inr (.inl ⟨rest, hp, by simp⟩)
  · exact .inl hs

/-- Settles O23: acceptance writes the latch, and of the steps from BUSY only those that end the command touch it. -/
theorem latchHeldWhileBusy : Obligations.LatchHeldWhileBusy := by
  refine ⟨fun i s t h => ?_, fun s t hb h hb' => ?_⟩
  · obtain ⟨r, -, he⟩ | ⟨-, he⟩ := exec_cases i s <;> cases he.symm.trans h
    rfl
  · obtain ⟨rest, rfl⟩ | ⟨d, rest, i, -, -, hidle, -⟩ | ⟨rest, -, rfl⟩ | ⟨-, hl⟩ := step_command_effect h
    · exact unitTurn_latch_of_busy hb'
    · cases hb.symm.trans hidle
    · simp at hb'
    · exact hl

/-! ### What the unit writes (R26, R27) -/

/-- The end of a command changes no byte outside its DST region. -/
theorem endCommand_read_outside {s : State} {a : Nat}
    (ha : ¬InRange s.latch.dstBase (rasterBytes s.latch.width s.latch.height) a) (word : Word) (lost : Bool) :
    (s.endCommand word lost).mem.read a = s.mem.read a := by
  rw [endCommand_mem]
  split
  · exact read_lose_outside ha
  · rfl

/-- No step of a BUSY unit changes a byte outside DST. -/
theorem unitStep_read_outside {s : State} {a : Nat} (h : s.Inv) (hb : s.isBusy = true)
    (ha : ¬InRange s.latch.dstBase (rasterBytes s.latch.width s.latch.height) a) :
    (unitStep s).mem.read a = s.mem.read a := by
  have hrun := h.running hb
  have hblit (hst : s.stage = .blit) : s.blitted.read a = s.mem.read a :=
    read_blit_outside (hrun.inGrid (hrun.decoded hst).1).1 ha
  obtain ⟨-, -, hu⟩ | ⟨-, -, -, hu⟩ | ⟨-, -, -, hu⟩ | ⟨hst, -, hu⟩ | ⟨hst, -, hu⟩ := unitStep_cases s <;> rw [hu]
  · exact endCommand_read_outside ha _ _
  · exact endCommand_read_outside ha _ _
  · rfl
  · exact (endCommand_read_outside (s := s.withBlitted) ha _ _).trans (hblit hst)
  · exact hblit hst

theorem unitTurn_read_outside {s : State} {a : Nat} (h : s.Inv)
    (ha : ¬InRange s.latch.dstBase (rasterBytes s.latch.width s.latch.height) a) :
    (unitTurn s).mem.read a = s.mem.read a := by
  unfold unitTurn
  split
  · exact unitStep_read_outside h ‹_› ha
  · rfl

/-- No SRC byte of a running command that is not of zero size lies in its DST region (20_memory.md R39). -/
theorem State.Running.src_outside_dst {s : State} (h : s.Running) (hw : s.latch.width ≠ 0) (hh : s.latch.height ≠ 0)
    {k : Nat} (hk : k < s.latch.len) :
    ¬InRange s.latch.dstBase (rasterBytes s.latch.width s.latch.height) (s.latch.srcBase + k) := by
  have hreg := (h.regions.resolve_left hw).resolve_left hh
  have hduties := hostDuties_of_regionRefusal
    (i := .decodeBc1 s.latch.dstBase s.latch.srcBase s.latch.len s.latch.width s.latch.height) hreg
  exact fun hin => hduties.apart _ ⟨⟨Nat.le_add_right .., Nat.add_lt_add_left hk _⟩, hin⟩

/-- Settles O22: the unit's writes lie in DST, and SRC does not. -/
theorem unitWritesOnlyDst : Obligations.UnitWritesOnlyDst := by
  intro s rest h hmoves
  have hinv := popped_inv h rest
  refine ⟨_, step_of_unitMoves hmoves, by simp, unitTurn_of_not_busy (s := s.popped rest),
    fun a => unitTurn_read_outside hinv, fun hb hw hh k hk => ?_⟩
  exact unitTurn_read_outside hinv ((h.running hb).src_outside_dst hw hh hk)

end Sys2Proof.Machine

namespace Sys2Proof.Machine

/-! What cannot influence what (10_state.md R15, R30): a relation between states that every operation of the machine
respects is respected by a step; it is shown for states that differ in data only, and for states the host cannot tell
apart. -/

/-! ### Steps of related states -/

/-- Related states agree on what selects a step, and every operation of the machine leads related states to related
states. -/
structure Respected (R : State → State → Prop) : Prop where
  params {s t} : R s t → s.params = t.params
  pending {s t} : R s t → s.pending = t.pending
  status {s t} : R s t → s.status = t.status
  popped {s t} : R s t → ∀ rest, R (s.popped rest) (t.popped rest)
  beginCommand {s t} : R s t → ∀ l, R (s.beginCommand l) (t.beginCommand l)
  unitStep {s t} : R s t → s.isBusy = true → R (unitStep s) (unitStep t)
  readStatus {s t} : R s t → R (hostReadStatus s) (hostReadStatus t)
  readMem {s t} : R s t → ∀ a, R (s.afterReadMem a) (t.afterReadMem a)
  writeMem {s t} : R s t → ∀ a v, R (s.afterWriteMem a v) (t.afterWriteMem a v)
  reset {s t} : R s t → R s.assertReset t.assertReset

section
variable {R : State → State → Prop} (hR : Respected R) {s t : State} (h : R s t)
include hR h

theorem Respected.isBusy : s.isBusy = t.isBusy :=
  isBusy_congr (hR.status h)

theorem Respected.unitTurn : R (unitTurn s) (unitTurn t) := by
  cases hb : s.isBusy with
  | false => rwa [unitTurn_of_not_busy hb, unitTurn_of_not_busy ((hR.isBusy h).symm.trans hb)]
  | true =>
    rw [unitTurn_of_busy hb, unitTurn_of_busy ((hR.isBusy h).symm.trans hb)]
    exact hR.unitStep h hb

theorem Respected.commandRefusal (dst src len width height : Nat) :
    commandRefusal s dst src len width height = commandRefusal t dst src len width height := by
  unfold Machine.commandRefusal
  rw [hR.isBusy h, hR.params h]

theorem Respected.hostReadMem (a : Nat) : SameOutcome R (hostReadMem a s) (hostReadMem a t) := by
  cases hp : plainAt s.params a with
  | false =>
    rw [hostReadMem_refused hp, hostReadMem_refused (hR.params h ▸ hp)]
    exact rfl
  | true =>
    rw [hostReadMem_eq hp, hostReadMem_eq (hR.params h ▸ hp)]
    exact hR.readMem h a

theorem Respected.hostWriteMem (a : Nat) (v : Byte) : SameOutcome R (hostWriteMem a v s) (hostWriteMem a v t) := by
  cases hp : plainAt s.params a with
  | false =>
    rw [hostWriteMem_refused hp, hostWriteMem_refused (hR.params h ▸ hp)]
    exact rfl
  | true =>
    rw [hostWriteMem_eq hp, hostWriteMem_eq (hR.params h ▸ hp)]
    exact hR.writeMem h a v

theorem Respected.hostWait (rest : List Turn) : R (hostWait rest s) (hostWait rest t) := by
  unfold Machine.hostWait
  rw [← hR.isBusy h]
  split
  · exact hR.unitStep h ‹_›
  · exact hR.readStatus (hR.popped h rest)

/-- Related states are stepped alike, whatever the turn. -/
theorem Respected.step : SameOutcome R (step s) (step t) := by
  have hpt := hR.pending h
  rcases hp : s.pending with _ | ⟨_ | op, rest⟩ <;> rw [hp] at hpt
  · rw [step_nil hp, step_nil hpt.symm]
    exact hR.unitTurn h
  · rw [step_unit hp, step_unit hpt.symm]
    exact hR.unitTurn (hR.popped h rest)
  have h' := hR.popped h rest
  cases op with
  | command d =>
    cases hd : decode s.params d with
    | error r =>
      rw [step_command_refused hp hd, step_command_refused hpt.symm (hR.params h ▸ hd)]
      exact rfl
    | ok i =>
      rw [step_command_decoded hp hd, step_command_decoded hpt.symm (hR.params h ▸ hd), hR.commandRefusal h']
      cases Machine.commandRefusal (t.popped rest) i.dst i.src i.len i.width i.height with
      | some r => exact rfl
      | none => exact hR.beginCommand h' _
  | readStatus =>
    rw [step_readStatus hp, step_readStatus hpt.symm]
    exact hR.readStatus h'
  | writeStatus v =>
    rw [step_writeStatus hp, step_writeStatus hpt.symm]
    exact rfl
  | readMem a =>
    rw [step_readMem hp, step_readMem hpt.symm]
    exact hR.hostReadMem h' a
  | writeMem a v =>
    rw [step_writeMem hp, step_writeMem hpt.symm]
    exact hR.hostWriteMem h' a v
  | wait =>
    rw [step_wait hp, step_wait hpt.symm]
    exact hR.hostWait h rest
  | reset =>
    rw [step_reset hp, step_reset hpt.symm]
    exact hR.reset h'

end

theorem exists_next_of_sameOutcome {R : State → State → Prop} {t : State} {o : Host.Outcome State Fault Refusal}
    (h : SameOutcome R (.next t) o) : ∃ t', o = .next t' ∧ R t t' := by
  cases o with
  | next t' => exact ⟨t', rfl, h⟩
  | fault r => exact h.elim
  | refused r => exact h.elim

theorem unitStep_of_read {s : State} (h : s.stage = .read) :
    unitStep s =
      if emptyGrid s.latch.width s.latch.height then s.finish
      else if s.cursor.off + Config.blockBytes s.latch.variant > s.latch.len then s.raiseInputTooShort
      else s.afterRead := by
  rw [unitStep, h]
  rfl

theorem unitStep_of_blit {s : State} (h : s.stage = .blit) :
    unitStep s =
      if s.cursor.isLast s.latch.width s.latch.height then s.withBlitted.finish else s.afterBlit := by
  rw [unitStep, h]
  rfl

/-- Which of its steps the unit takes depends on the stage, the latch and the cursor alone. -/
theorem unitStep_lockstep {s t : State} (hst : s.stage = t.stage) (hl : s.latch = t.latch)
    (hc : s.cursor = t.cursor) :
    (unitStep s = s.finish ∧ unitStep t = t.finish) ∨
    (unitStep s = s.raiseInputTooShort ∧ unitStep t = t.raiseInputTooShort) ∨
    (unitStep s = s.afterRead ∧ unitStep t = t.afterRead) ∨
    (s.stage = .blit ∧ unitStep s = s.withBlitted.finish ∧ unitStep t = t.withBlitted.finish) ∨
    (s.stage = .blit ∧ unitStep s = s.afterBlit ∧ unitStep t = t.afterBlit) := by
  cases hs : s.stage with
  | read =>
    rw [unitStep_of_read hs, unitStep_of_read (hst ▸ hs), ← hl, ← hc]
    by_cases he : emptyGrid s.latch.width s.latch.height = true
    · exact .inl ⟨if_pos he, if_pos he⟩
    rw [if_neg he, if_neg he]
    by_cases hlen : s.cursor.off + Config.blockBytes s.latch.variant > s.latch.len
    · exact .inr (.inl ⟨if_pos hlen, if_pos hlen⟩)
    · exact .inr (.inr (.inl ⟨if_neg hlen, if_neg hlen⟩))
  | blit =>
    rw [unitStep_of_blit hs, unitStep_of_blit (hst ▸ hs), ← hl, ← hc]
    by_cases hlast : s.cursor.isLast s.latch.width s.latch.height = true
    · exact .inr (.inr (.inr (.inl ⟨rfl, if_pos hlast, if_pos hlast⟩)))
    · exact .inr (.inr (.inr (.inr ⟨rfl, if_neg hlast, if_neg hlast⟩)))

/-! ### States that differ in data only -/

/-- The state with other memory, read data and scratch registers. -/
def State.withData (s : State) (m : Memory) (r : Word) (sc : Scratch) : State :=
  { s with mem := m, readData := r, scratch := sc }

/-- The states differ at most in memory, what the host read and the scratch registers. -/
def SameControl (s t : State) : Prop :=
  ∃ m r sc, t = s.withData m r sc

theorem SameControl.endCommand {s t : State} (h : SameControl s t) (word : Word) (lost lost' : Bool) :
    SameControl (s.endCommand word lost) (t.endCommand word lost') := by
  obtain ⟨m, r, sc, rfl⟩ := h
  exact ⟨_, _, _, rfl⟩

theorem SameControl.unitStep {s t : State} (h : SameControl s t) : SameControl (unitStep s) (unitStep t) := by
  obtain ⟨m, r, sc, rfl⟩ := h
  obtain ⟨hs, ht⟩ | ⟨hs, ht⟩ | ⟨hs, ht⟩ | ⟨-, hs, ht⟩ | ⟨-, hs, ht⟩ :=
    unitStep_lockstep (s := s) (t := s.withData m r sc) rfl rfl rfl <;> rw [hs, ht] <;> exact ⟨_, _, _, rfl⟩

theorem SameControl.readMem {s t : State} (h : SameControl s t) (a : Nat) :
    SameControl (s.afterReadMem a) (t.afterReadMem a) := by
  obtain ⟨m, r, sc, rfl⟩ := h
  have hcond : ((s.withData m r sc).isBusy && (s.withData m r sc).inDst a) = (s.isBusy && s.inDst a) := rfl
  unfold State.afterReadMem
  rw [hcond]
  split <;> exact ⟨_, _, _, rfl⟩

theorem sameControl_respected : Respected SameControl where
  params := by rintro s _ ⟨m, r, sc, rfl⟩; rfl
  pending := by rintro s _ ⟨m, r, sc, rfl⟩; rfl
  status := by rintro s _ ⟨m, r, sc, rfl⟩; rfl
  popped := by rintro s _ ⟨m, r, sc, rfl⟩ rest; exact ⟨m, r, sc, rfl⟩
  beginCommand := by rintro s _ ⟨m, r, sc, rfl⟩ l; exact ⟨m, r, sc, rfl⟩
  unitStep h _ := h.unitStep
  readStatus := by rintro s _ ⟨m, r, sc, rfl⟩; exact ⟨m, s.status, sc, rfl⟩
  readMem := SameControl.readMem
  writeMem := by rintro s _ ⟨m, r, sc, rfl⟩ a v; exact ⟨m.write a v, r, sc, rfl⟩
  reset h := h.endCommand _ _ _

/-- Settles O28: states that differ in data only are stepped to states that differ in data only. -/
theorem memoryNeverSteersTheUnit : Obligations.MemoryNeverSteersTheUnit := by
  intro s t m hstep
  have hsame : SameControl s { s with mem := m } := ⟨m, s.readData, s.scratch, rfl⟩
  have hout := sameControl_respected.step hsame
  rw [hstep] at hout
  obtain ⟨_, ht', m', r, sc, rfl⟩ := exists_next_of_sameOutcome hout
  exact ⟨_, ht', rfl, rfl, rfl, rfl, rfl, rfl, rfl⟩

/-! ### States the host cannot tell apart -/

section
variable {s t : State} (h : SameToHost s t)
include h

theorem SameToHost.popped (rest : List Turn) : SameToHost (s.popped rest) (t.popped rest) :=
  { h with pending := rfl }

/-- A command begins alike in both: it writes the latch and the cursor, and reads the tile after its own decode only. -/
theorem SameToHost.beginCommand (l : Latch) : SameToHost (s.beginCommand l) (t.beginCommand l) :=
  { h with
    status := rfl
    stage := rfl
    dstLost := rfl
    latch := fun _ => rfl
    cursor := fun _ => rfl
    tile := nofun }

/-- A command ends alike in both, as long as the same DST region is lost. -/
theorem SameToHost.endCommand (word : Word) {lost : Bool} (hl : lost = true → s.latch = t.latch) :
    SameToHost (s.endCommand word lost) (t.endCommand word lost) := by
  have hmem : (s.endCommand word lost).mem = (t.endCommand word lost).mem := by
    rw [endCommand_mem, endCommand_mem, h.mem, h.draws]
    split
    · rw [hl ‹_›]
    · rfl
  exact
    { h with
      status := rfl
      stage := rfl
      dstLost := rfl
      mem := hmem
      draws := congrArg (· + 1) h.draws
      latch := fun _ => congrArg₂ freeLatch h.params h.draws
      cursor := fun _ => congrArg freeCursor h.draws
      tile := nofun }

theorem SameToHost.finish (hl : s.latch = t.latch) : SameToHost s.finish t.finish := by
  rw [State.finish, State.finish, ← h.dstLost]
  exact h.endCommand _ fun _ => hl

theorem SameToHost.assertReset : SameToHost s.assertReset t.assertReset := by
  rw [State.assertReset, State.assertReset, ← isBusy_congr h.status]
  exact h.endCommand _ h.latch

theorem SameToHost.afterRead (hb : s.isBusy = true) : SameToHost s.afterRead t.afterRead :=
  { h with
    stage := rfl
    tile := fun _ _ => by
      simp only [State.afterRead, decodeBlock_tile, State.blockAtCursor, h.mem, h.latch hb, h.cursor hb] }

theorem SameToHost.blitted (hb : s.isBusy = true) (hst : s.stage = .blit) : s.blitted = t.blitted := by
  simp only [State.blitted, h.mem, h.latch hb, h.cursor hb, h.tile hb hst]

theorem SameToHost.afterBlit (hb : s.isBusy = true) (hst : s.stage = .blit) : SameToHost s.afterBlit t.afterBlit :=
  { h with
    stage := rfl
    mem := h.blitted hb hst
    draws := congrArg (· + 1) h.draws
    cursor := fun _ => by simp only [State.afterBlit, h.latch hb, h.cursor hb]
    tile := nofun }

theorem SameToHost.unitStep (hb : s.isBusy = true) : SameToHost (unitStep s) (unitStep t) := by
  have hl := h.latch hb
  obtain ⟨hs, ht⟩ | ⟨hs, ht⟩ | ⟨hs, ht⟩ | ⟨hst, hs, ht⟩ | ⟨hst, hs, ht⟩ :=
    unitStep_lockstep h.stage hl (h.cursor hb) <;> rw [hs, ht]
  · exact h.finish hl
  · exact h.endCommand _ fun _ => hl
  · exact h.afterRead hb
  · have hblit : SameToHost s.withBlitted t.withBlitted := { h with mem := h.blitted hb hst }
    exact hblit.finish hl
  · exact h.afterBlit hb hst

/-- What is asked of the latch only while BUSY has the same answer in both. -/
theorem SameToHost.busy_and {f : State → Bool} (hf : s.latch = t.latch → f s = f t) :
    (s.isBusy && f s) = (t.isBusy && f t) := by
  rw [← isBusy_congr h.status]
  cases hb : s.isBusy with
  | false => rfl
  | true => rw [hf (h.latch hb)]

theorem SameToHost.afterReadMem (a : Nat) : SameToHost (s.afterReadMem a) (t.afterReadMem a) := by
  have hcond := h.busy_and (f := (·.inDst a)) fun hl => by simp only [State.inDst, hl]
  unfold State.afterReadMem
  rw [← hcond]
  split
  · exact { h with readData := by simp only [h.draws], draws := congrArg (· + 1) h.draws }
  · exact { h with readData := by simp only [h.mem] }

theorem SameToHost.afterWriteMem (a : Nat) (v : Byte) :
    SameToHost (s.afterWriteMem a v) (t.afterWriteMem a v) := by
  have hcond := h.busy_and (f := fun u => u.inSrc a || u.inDst a) fun hl => by
    simp only [State.inSrc, State.inDst, hl]
  exact
    { h with
      mem := congrArg (·.write a v) h.mem
      dstLost := congrArg₂ (· || ·) h.dstLost hcond }

end

theorem sameToHost_respected : Respected SameToHost where
  params := SameToHost.params
  pending := SameToHost.pending
  status := SameToHost.status
  popped := SameToHost.popped
  beginCommand := SameToHost.beginCommand
  unitStep := SameToHost.unitStep
  readStatus h := { h with readData := h.status }
  readMem := SameToHost.afterReadMem
  writeMem := SameToHost.afterWriteMem
  reset := SameToHost.assertReset

/-- Settles O29: no operation of the machine reads hidden state that is dead. -/
theorem hiddenStateNeverObserved : Obligations.HiddenStateNeverObserved :=
  fun _ _ => sameToHost_respected.step

end Sys2Proof.Machine

namespace Sys2Proof.Machine

/-! Commands whose regions overlap (20_memory.md R39). -/

theorem exec_of_commandRefusal {i : Instr} {s : State} {r : Refusal}
    (h : commandRefusal s i.dst i.src i.len i.width i.height = some r) : exec i s = .refused r := by
  rw [exec_eq, acceptCommand, h]

/-- A command that is not of zero size is judged by its regions when the unit is not BUSY. -/
theorem commandRefusal_of_not_busy {s : State} (hb : s.isBusy = false) {width height : Nat} (hw : width ≠ 0)
    (hh : height ≠ 0) (dst src len : Nat) :
    commandRefusal s dst src len width height = regionRefusal s.params dst src len width height := by
  rw [commandRefusal, hb, if_neg (by simp), if_neg (by tauto)]

/-- Regions that are in order but for an address they share are refused for that. -/
theorem regionRefusal_overlap {p : Params} {dst src len width height : Nat} (hp : p.wf = true)
    (hsrcTop : src + len ≤ 2 ^ p.addrBits) (hdstTop : dst + rasterBytes width height ≤ 2 ^ p.addrBits)
    (hsrc : ∀ a, InRange src len a → ∃ r ∈ p.map, r.readable = true ∧ InRange r.base r.size a)
    (hdst : ∀ a, InRange dst (rasterBytes width height) a →
      ∃ r ∈ p.map, r.writable = true ∧ InRange r.base r.size a)
    (hshare : ∃ a, InRange src len a ∧ InRange dst (rasterBytes width height) a) :
    regionRefusal p dst src len width height = some .overlap := by
  have hs : covered (fun r => r.readable) p.map src (src + len) = true :=
    covered_complete (map_sorted hp) fun a h1 h2 => hsrc a ⟨h1, h2⟩
  have hd : covered (fun r => r.writable) p.map dst (dst + rasterBytes width height) = true :=
    covered_complete (map_sorted hp) fun a h1 h2 => hdst a ⟨h1, h2⟩
  rw [regionRefusal, if_neg (by omega), if_neg (by omega), hs, hd, (rangesOverlap_iff ..).2 hshare]
  rfl

/-- Settles O8: a command that begins meets the host's duties, one of which keeps SRC and DST apart; and the overlap is
the last ground a command is judged by. -/
theorem overlappingRegionsRefused : Obligations.OverlappingRegionsRefused := by
  refine ⟨fun i s a hw hh hsrc hdst => ?_, fun i s a hp hb hw hh htop htop' hplain hplain' hsrc hdst => ?_⟩
  · obtain ⟨r, -, he⟩ | ⟨hacc, -⟩ := exec_cases i s
    · exact ⟨r, he⟩
    · have hduties := ((launchable_of_commandRefusal hacc).2.resolve_left hw).resolve_left hh
      exact absurd ⟨hsrc, hdst⟩ (hduties.apart a)
  · exact exec_of_commandRefusal ((commandRefusal_of_not_busy hb hw hh ..).trans
      (regionRefusal_overlap hp htop htop' hplain hplain' ⟨a, hsrc, hdst⟩))

end Sys2Proof.Machine

namespace Sys2Proof.Machine

/-! The host's reads and writes of memory (20_memory.md R38, R42, R43; 70_reset_and_hazards.md R122, R123). -/

/-- What is no plain memory: past the top of the host address space, or in no region of the map (log 20). -/
theorem plainAt_eq_false_iff (p : Params) (a : Nat) :
    plainAt p a = false ↔ 2 ^ p.addrBits ≤ a ∨ ∀ r ∈ p.map, ¬InRange r.base r.size a := by
  rw [Bool.eq_false_iff, Ne, plainAt_iff, not_and_or, Nat.not_lt]
  simp only [not_exists, not_and]

/-- The interference mark after a host write (R122, R123; log 12). -/
theorem afterWriteMem_dstLost_iff (s : State) (a : Nat) (v : Byte) :
    (s.afterWriteMem a v).dstLost = true ↔ s.dstLost = true ∨
      s.isBusy = true ∧ (InRange s.latch.srcBase s.latch.len a ∨
        InRange s.latch.dstBase (rasterBytes s.latch.width s.latch.height) a) := by
  rw [← inSrc_iff, ← inDst_iff]
  simp [State.afterWriteMem]

/-- Settles O32, from what a write to memory is. -/
theorem hostWriteStoresOneByte : Obligations.HostWriteStoresOneByte := by
  refine ⟨fun s a v rest hp htop hmap => ?_, fun s a v rest hp hplain => ?_⟩
  · have hplain : plainAt (s.popped rest).params a = true := (plainAt_iff ..).2 ⟨htop, hmap⟩
    exact ⟨_, (step_writeMem hp).trans (hostWriteMem_eq hplain), fun b => read_write s.mem a b v,
      afterWriteMem_dstLost_iff (s.popped rest) a v, rfl, rfl, rfl, rfl, rfl, rfl, rfl, rfl, rfl⟩
  · exact (step_writeMem hp).trans (hostWriteMem_refused ((plainAt_eq_false_iff ..).2 hplain))

/-- A host read changes what the host read last and the next draw, nothing else. -/
theorem afterReadMem_eq (s : State) (a : Nat) :
    s.afterReadMem a = { s with readData := (s.afterReadMem a).readData, draws := (s.afterReadMem a).draws } := by
  unfold State.afterReadMem
  split <;> rfl

/-- A byte of a running command's DST reads as a free byte (R42; log 13). -/
theorem afterReadMem_of_race {s : State} {a : Nat}
    (h : s.isBusy = true ∧ InRange s.latch.dstBase (rasterBytes s.latch.width s.latch.height) a) :
    s.afterReadMem a = { s with readData := (Config.freeByte s.draws a).setWidth 32, draws := s.draws + 1 } := by
  rw [← inDst_iff] at h
  exact if_pos (by simp [h])

/-- Any other byte reads as memory holds it (R38). -/
theorem afterReadMem_of_no_race {s : State} {a : Nat}
    (h : ¬(s.isBusy = true ∧ InRange s.latch.dstBase (rasterBytes s.latch.width s.latch.height) a)) :
    s.afterReadMem a = { s with readData := (s.mem.read a).setWidth 32 } := by
  rw [← inDst_iff] at h
  exact if_neg (by simpa using h)

/-- Settles O34, from what a read of memory is. -/
theorem hostReadReturnsByte : Obligations.HostReadReturnsByte := by
  refine ⟨fun s a rest hp htop hmap => ?_, fun s a rest hp hplain => ?_⟩
  · have hplain : plainAt (s.popped rest).params a = true := (plainAt_iff ..).2 ⟨htop, hmap⟩
    refine ⟨_, (step_readMem hp).trans (hostReadMem_eq hplain), fun h => ?_, fun h => ?_, ?_⟩
    · rw [afterReadMem_of_race (s := s.popped rest) h]
      exact ⟨rfl, rfl⟩
    · rw [afterReadMem_of_no_race (s := s.popped rest) h]
      exact ⟨rfl, rfl⟩
    · rw [afterReadMem_eq]
      exact ⟨rfl, rfl, rfl, rfl, rfl, rfl, rfl, rfl, rfl⟩
  · exact (step_readMem hp).trans (hostReadMem_refused ((plainAt_eq_false_iff ..).2 hplain))

/-! ### DONE after interference (R43, R123) -/

/-- A BUSY unit reaches DONE by finishing an empty grid, or by blitting the last block and finishing. -/
theorem unitStep_of_done {s : State} (hb : s.isBusy = true) (hd : (unitStep s).status = 0x00000002#32) :
    unitStep s = s.finish ∨ unitStep s = s.withBlitted.finish := by
  have hs : s.status ≠ 0x00000002#32 := fun hs => nomatch hb.symm.trans (not_isBusy_of_status (.inr (.inl hs)))
  obtain ⟨-, -, hu⟩ | ⟨-, -, -, hu⟩ | ⟨-, -, -, hu⟩ | ⟨-, -, hu⟩ | ⟨-, -, hu⟩ := unitStep_cases s
  · exact .inl hu
  · rw [hu, raiseInputTooShort_status] at hd
    exact absurd hd (by decide)
  · rw [hu] at hd
    exact absurd hd hs
  · exact .inr hu
  · rw [hu] at hd
    exact absurd hd hs

/-- A command that ends with its interference noted loses its DST region. -/
theorem finish_mem_of_dstLost {s : State} (h : s.dstLost = true) :
    s.finish.mem = s.mem.lose s.latch.dstBase (rasterBytes s.latch.width s.latch.height) s.draws := by
  rw [finish_mem, if_pos h]

/-- Reaching DONE with interference noted loses the DST region, and what the last blit wrote before lay in it. -/
theorem unitStep_read_of_interfered {s : State} (hb : s.isBusy = true) (hlost : s.dstLost = true)
    (hcol : s.cursor.col < gridDim s.latch.width) (hdone : (unitStep s).status = 0x00000002#32) :
    (∀ a, InRange s.latch.dstBase (rasterBytes s.latch.width s.latch.height) a →
      (unitStep s).mem.read a = Config.freeByte s.draws a) ∧
    (∀ a, ¬InRange s.latch.dstBase (rasterBytes s.latch.width s.latch.height) a →
      (unitStep s).mem.read a = s.mem.read a) := by
  obtain hu | hu := unitStep_of_done hb hdone
  · rw [hu, finish_mem_of_dstLost hlost]
    exact ⟨fun a => read_lose_inside, fun a => read_lose_outside⟩
  · rw [hu, finish_mem_of_dstLost (s := s.withBlitted) hlost]
    exact ⟨fun a => read_lose_inside, fun a ha => (read_lose_outside ha).trans (read_blit_outside hcol ha)⟩

/-- Settles O33: whichever turn the unit moves in, the step is that of the BUSY unit. -/
theorem interferedCommandLosesDst : Obligations.InterferedCommandLosesDst := by
  intro s t rest hb hmoves hlost hcol hstep hdone
  rw [step_of_unitMoves hmoves, unitTurn_of_busy (s := s.popped rest) hb] at hstep
  cases hstep
  exact unitStep_read_of_interfered (s := s.popped rest) hb hlost hcol hdone

end Sys2Proof.Machine

namespace Sys2Proof.Machine

/-! The multi-byte fields of a block are little-endian (20_memory.md R31, 30_encoding.md R52). -/

/-- The bytes from i on are byte i and the bytes after it; past the block's end both weigh nothing. -/
theorem littleEndian_bytesAt_succ (blk : List Byte) (i n : Nat) :
    littleEndian (bytesAt blk i (n + 1)) =
      (blk.getD i 0#8).toNat + 256 * littleEndian (bytesAt blk (i + 1) n) := by
  by_cases hi : i < blk.length
  · rw [bytesAt, List.drop_eq_getElem_cons hi, List.take_succ_cons, List.getD_eq_getElem _ _ hi]
    rfl
  · rw [bytesAt, bytesAt, List.drop_eq_nil_of_le (by omega), List.drop_eq_nil_of_le (by omega),
      List.getD_eq_default _ _ (by omega),
      List.take_nil, List.take_nil]
    rfl

/-- Byte k of a field has weight 2^(8k). -/
theorem littleEndian_bytesAt (blk : List Byte) (i n : Nat) :
    littleEndian (bytesAt blk i n) =
      ((List.range n).map fun k => (blk.getD (i + k) 0#8).toNat * 2 ^ (8 * k)).sum := by
  induction n generalizing i with
  | zero => rfl
  | succ n ih =>
    rw [littleEndian_bytesAt_succ, ih, List.range_succ_eq_map, List.map_cons, List.sum_cons, List.map_map,
      ← List.sum_map_mul_left]
    congr 2
    · simp
    · refine List.map_congr_left fun k _ => ?_
      have hpow : 2 ^ (8 * (k + 1)) = 256 * 2 ^ (8 * k) := by ring
      simp only [Function.comp_apply, Nat.succ_eq_add_one, hpow, Nat.add_assoc, Nat.add_comm 1 k]
      ring

theorem littleEndian_bytesAt_lt (blk : List Byte) (i n : Nat) :
    littleEndian (bytesAt blk i n) < 2 ^ (8 * n) := by
  induction n generalizing i with
  | zero => exact Nat.one_pos
  | succ n ih =>
    have hbyte := (blk.getD i 0#8).isLt
    have hrest := ih (i + 1)
    have hpow : 2 ^ (8 * (n + 1)) = 256 * 2 ^ (8 * n) := by ring
    rw [littleEndian_bytesAt_succ]
    omega

/-- A field of n bytes holds the weighted sum of its bytes: nothing is cut off. -/
theorem field_toNat {bits n : Nat} (hbits : bits = 8 * n) (blk : List Byte) (i : Nat) :
    (BitVec.ofNat bits (littleEndian (bytesAt blk i n))).toNat =
      ((List.range n).map fun k => (blk.getD (i + k) 0#8).toNat * 2 ^ (8 * k)).sum := by
  rw [hbits, BitVec.toNat_ofNat, Nat.mod_eq_of_lt (littleEndian_bytesAt_lt blk i n), littleEndian_bytesAt]

theorem half_toNat (blk : List Byte) (i : Nat) :
    (half blk i).toNat = (blk.getD i 0#8).toNat + (blk.getD (i + 1) 0#8).toNat * 2 ^ 8 := by
  rw [half, field_toNat (n := 2) (by rfl)]
  simp [List.sum_range_succ]

theorem colorWord_toNat (blk : List Byte) (i : Nat) :
    (colorWord blk i).toNat =
      (blk.getD i 0#8).toNat + (blk.getD (i + 1) 0#8).toNat * 2 ^ 8 + (blk.getD (i + 2) 0#8).toNat * 2 ^ 16 +
        (blk.getD (i + 3) 0#8).toNat * 2 ^ 24 := by
  rw [colorWord, field_toNat (n := 4) (by rfl)]
  simp [List.sum_range_succ]

theorem alphaWord_toNat (blk : List Byte) :
    (alphaWord blk).toNat = ((List.range 6).map fun k => (blk.getD (2 + k) 0#8).toNat * 2 ^ (8 * k)).sum := by
  rw [alphaWord, field_toNat (n := 6) (by rfl)]

theorem byteAt_eq_getD (blk : List Byte) (i : Nat) : byteAt blk i = blk.getD i 0#8 := by
  refine BitVec.eq_of_toNat_eq ?_
  rw [byteAt, field_toNat (n := 1) (by rfl)]
  simp

/-- Settles O47: the fields of two, four, six and one byte; past the block's end both sides read zero bytes. -/
theorem blockFieldsAreLittleEndian : Obligations.BlockFieldsAreLittleEndian :=
  ⟨fun blk i _ => half_toNat blk i, fun blk i _ => colorWord_toNat blk i, fun blk _ => alphaWord_toNat blk,
    fun blk i _ => byteAt_eq_getD blk i⟩

end Sys2Proof.Machine

namespace Sys2Proof.Machine

/-! The order of the blits (20_memory.md R40): the writes of all blocks give no address two values, so memory reads the
same in whatever order they come. -/

/-- Two lists of the same writes, which give no address two values, leave the same bytes. -/
theorem read_writeAll_congr {l l' : List Host.Cell} (hmem : ∀ c, c ∈ l ↔ c ∈ l')
    (huniq : ∀ a v w, (a, v) ∈ l → (a, w) ∈ l → w = v) (m : Memory) (a : Nat) :
    (m.writeAll l).read a = (m.writeAll l').read a := by
  by_cases ha : ∃ v, (a, v) ∈ l
  · obtain ⟨v, hv⟩ := ha
    rw [read_writeAll_mem hv fun w => huniq a v w hv,
      read_writeAll_mem ((hmem _).1 hv) fun w hw => huniq a v w hv ((hmem _).2 hw)]
  · have hout : ∀ c ∈ l, c.1 ≠ a := by
      rintro ⟨_, v⟩ hc rfl
      exact ha ⟨v, hc⟩
    rw [read_writeAll_outside hout, read_writeAll_outside fun c hc => hout c ((hmem c).2 hc)]

theorem mem_gridBlocks {w h : Nat} {b : Nat × Nat} : b ∈ gridBlocks w h ↔ b.1 < gridDim w ∧ b.2 < gridDim h := by
  obtain ⟨col, row⟩ := b
  simp [gridBlocks, and_comm]

/-- The writes of the blits of a list of blocks, in order. -/
def blocksStores (dst w h : Nat) (tile : Nat × Nat → Vector Byte 64) (order : List (Nat × Nat)) : List Host.Cell :=
  order.flatMap fun b => (blitStores w h b.1 b.2 (tile b)).map fun c => (dst + c.1, c.2)

theorem foldl_blit (dst w h : Nat) (tile : Nat × Nat → Vector Byte 64) (order : List (Nat × Nat)) (m : Memory) :
    order.foldl (fun m b => blit m dst w h b.1 b.2 (tile b)) m = m.writeAll (blocksStores dst w h tile order) := by
  induction order generalizing m with
  | nil => rfl
  | cons b rest ih =>
    rw [List.foldl_cons, ih, blocksStores, blocksStores, List.flatMap_cons, writeAll_append]
    rfl

/-- A write of the grid's blits is that of one raster pixel, from the tile of the pixel's block. -/
theorem mem_blocksStores_gridBlocks {dst w h : Nat} {tile : Nat × Nat → Vector Byte 64} {a : Nat} {v : Byte}
    (hmem : (a, v) ∈ blocksStores dst w h tile (gridBlocks w h)) :
    ∃ x y c, x < w ∧ c < 4 ∧ a = dst + (pixelOffset w x y + c) ∧ v = tileByte (tile (x / 4, y / 4)) x y c := by
  obtain ⟨⟨col, row⟩, hb, hmem⟩ := List.mem_flatMap.1 hmem
  obtain ⟨⟨o, v'⟩, hstore, heq⟩ := List.mem_map.1 hmem
  obtain ⟨rfl, rfl⟩ := Prod.mk.inj heq
  obtain ⟨x, y, c, hx, -, hc, rfl, rfl, rfl, rfl⟩ := (mem_blitStores (mem_gridBlocks.1 hb).1).1 hstore
  exact ⟨x, y, c, hx, hc, rfl, rfl⟩

/-- The grid's blits give no address two values: distinct pixel bytes have distinct offsets (R99). -/
theorem blocksStores_gridBlocks_unique {dst w h : Nat} {tile : Nat × Nat → Vector Byte 64} (a : Nat) (v v' : Byte)
    (hv : (a, v) ∈ blocksStores dst w h tile (gridBlocks w h))
    (hv' : (a, v') ∈ blocksStores dst w h tile (gridBlocks w h)) : v' = v := by
  obtain ⟨x, y, c, hx, hc, rfl, rfl⟩ := mem_blocksStores_gridBlocks hv
  obtain ⟨x', y', c', hx', hc', heq, rfl⟩ := mem_blocksStores_gridBlocks hv'
  obtain ⟨rfl, rfl, rfl⟩ := pixelOffset_inj hx hx' hc hc' (Nat.add_left_cancel heq)
  rfl

/-- Settles O58: in any order the blits are the same writes, and they give no address two values. -/
theorem blockOrderDoesNotMatter : Obligations.BlockOrderDoesNotMatter := by
  intro m dst w h tile order horder a
  rw [foldl_blit, foldl_blit]
  exact (read_writeAll_congr (fun _ => (horder.flatMap_right _).mem_iff.symm) blocksStores_gridBlocks_unique m a).symm

end Sys2Proof.Machine

namespace Sys2Proof.Machine

/-! The decoder and the encoder of command descriptors (30_encoding.md R46 to R49, R66): what each CMD word selects, and
that the two are inverse to each other. -/

/-! ### CMD words -/

/-- A CMD word with no RSVD bit set is its VARIANT field (R48). -/
theorem cmd_eq_variantField {cmd : Word} (h : cmd.extractLsb' 2 30 = 0#30) :
    cmd = (cmd.extractLsb' 0 2).setWidth 32 := by
  have hlt : cmd.toNat < 4 := by
    have hrsvd := congrArg BitVec.toNat h
    simp only [BitVec.extractLsb'_toNat, Nat.shiftRight_eq_div_pow, BitVec.toNat_ofNat] at hrsvd
    omega
  refine BitVec.eq_of_toNat_eq ?_
  simp only [BitVec.toNat_setWidth, BitVec.extractLsb'_toNat, Nat.shiftRight_zero]
  omega

/-- Every CMD word is that of one of the three variants, or has VARIANT = 11 or a RSVD bit set (R48, R49). -/
theorem cmdWord_or_reserved (cmd : Word) :
    (∃ v, cmd = cmdWord v) ∨ (cmd.extractLsb' 0 2 = 0b11#2 ∨ cmd.extractLsb' 2 30 ≠ 0#30) := by
  by_cases hrsvd : cmd.extractLsb' 2 30 = 0#30
  · have hcmd := cmd_eq_variantField hrsvd
    have hvariant : ∀ c : BitVec 2, c = 0b00#2 ∨ c = 0b01#2 ∨ c = 0b10#2 ∨ c = 0b11#2 := by decide
    rcases hvariant (cmd.extractLsb' 0 2) with hc | hc | hc | hc
    · exact .inl ⟨.A, by rw [hcmd, hc]; rfl⟩
    · exact .inl ⟨.B, by rw [hcmd, hc]; rfl⟩
    · exact .inl ⟨.C, by rw [hcmd, hc]; rfl⟩
    · exact .inr (.inl hc)
  · exact .inr (.inr hrsvd)

theorem decodeCmd_cmdWord (v : Variant) : decodeCmd (cmdWord v) = .ok v := by
  cases v <;> rfl

theorem decodeCmd_of_reserved {cmd : Word} (h : cmd.extractLsb' 0 2 = 0b11#2 ∨ cmd.extractLsb' 2 30 ≠ 0#30) :
    decodeCmd cmd = .error .reservedCmd := by
  by_cases hrsvd : cmd.extractLsb' 2 30 = 0#30
  · have hvariant : cmd.extractLsb' 0 2 = 0b11#2 := h.resolve_right (· hrsvd)
    simp [decodeCmd, hrsvd, hvariant]
  · exact if_pos hrsvd

/-! ### Descriptors -/

theorem decode_of_cmdWord {d : Descriptor} {v : Variant} (h : d.cmd = cmdWord v) (p : Params) :
    decode p d =
      if operandsFit p d.dstBase d.srcBase d.len d.width d.height then .ok (commandOf v d)
      else .error .fieldTooWide := by
  rw [decode, h, decodeCmd_cmdWord]

theorem decode_of_reserved {d : Descriptor} (h : d.cmd.extractLsb' 0 2 = 0b11#2 ∨ d.cmd.extractLsb' 2 30 ≠ 0#30)
    (p : Params) : decode p d = .error .reservedCmd := by
  rw [decode, decodeCmd_of_reserved h]

/-- A descriptor that decodes has the CMD word of a variant, operands that fit, and stands for that variant's command. -/
theorem commandOf_of_decode {p : Params} {d : Descriptor} {i : Instr} (h : decode p d = .ok i) :
    ∃ v, d.cmd = cmdWord v ∧ operandsFit p d.dstBase d.srcBase d.len d.width d.height = true ∧ commandOf v d = i := by
  obtain ⟨v, hv⟩ | hr := cmdWord_or_reserved d.cmd
  · rw [decode_of_cmdWord hv] at h
    split at h
    · exact ⟨v, hv, ‹_›, Except.ok.inj h⟩
    · cases h
  · rw [decode_of_reserved hr] at h
    cases h

@[simp] theorem encode_cmd (i : Instr) : (encode i).cmd = cmdWord i.variant := by
  cases i <;> rfl

@[simp] theorem operandsFit_encode (p : Params) (i : Instr) :
    operandsFit p (encode i).dstBase (encode i).srcBase (encode i).len (encode i).width (encode i).height = i.wf p := by
  cases i <;> rfl

@[simp] theorem commandOf_encode (i : Instr) : commandOf i.variant (encode i) = i := by
  cases i <;> rfl

@[simp] theorem commandOf_wf (p : Params) (v : Variant) (d : Descriptor) :
    (commandOf v d).wf p = operandsFit p d.dstBase d.srcBase d.len d.width d.height := by
  cases v <;> rfl

theorem encode_commandOf {d : Descriptor} {v : Variant} (h : d.cmd = cmdWord v) : encode (commandOf v d) = d := by
  obtain ⟨cmd, width, height, len, srcBase, dstBase⟩ := d
  obtain rfl : cmd = cmdWord v := h
  cases v <;> rfl

theorem decode_encode {p : Params} {i : Instr} (h : i.wf p = true) : decode p (encode i) = .ok i := by
  rw [decode_of_cmdWord (encode_cmd i), operandsFit_encode, commandOf_encode, if_pos h]

theorem encode_of_decode {p : Params} {d : Descriptor} {i : Instr} (h : decode p d = .ok i) :
    encode i = d ∧ i.wf p = true := by
  obtain ⟨v, hv, hfit, rfl⟩ := commandOf_of_decode h
  exact ⟨encode_commandOf hv, by rwa [commandOf_wf]⟩

/-- Settles O3: the two directions, each by the variant whose CMD word the descriptor carries. -/
theorem decodeEncodeAgree : Obligations.DecodeEncodeAgree :=
  ⟨fun _ _ => decode_encode, fun _ _ _ => encode_of_decode⟩

/-- Settles O2: the three words by what they decode to; any other has VARIANT = 11 or a RSVD bit set. -/
theorem decodeCmdSelectsThreeWords : Obligations.DecodeCmdSelectsThreeWords := by
  intro cmd
  obtain ⟨v, rfl⟩ | hr := cmdWord_or_reserved cmd
  · cases v <;> rfl
  · have hne : ∀ v, cmd ≠ cmdWord v := by
      rintro v rfl
      cases (decodeCmd_cmdWord v).symm.trans (decodeCmd_of_reserved hr)
    have hA : cmd ≠ 0x00000000#32 := hne .A
    have hB : cmd ≠ 0x00000001#32 := hne .B
    have hC : cmd ≠ 0x00000002#32 := hne .C
    rw [decodeCmd_of_reserved hr, if_neg hA, if_neg hB, if_neg hC]

/-- Settles O1: the first three descriptors are encodings of well-formed commands, the other three CMD words are reserved. -/
theorem cmdWordsSelectTheirCommands : Obligations.CmdWordsSelectTheirCommands :=
  ⟨decode_encode (i := .decodeBc1 0x2000 0x1000 16 8 4) (by decide),
    decode_encode (i := .decodeBc2 0x2000 0x1000 16 2 3) (by decide),
    decode_encode (i := .decodeBc3 0x2000 0x1000 64 5 6) (by decide),
    decode_of_reserved (by decide) _, decode_of_reserved (by decide) _, decode_of_reserved (by decide) _⟩

/-! ### Issuing a descriptor -/

/-- Settles O4: the turn is the issue of a descriptor, and the decoder answers i. -/
theorem stepRunsDecodedCommand : Obligations.StepRunsDecodedCommand := by
  intro s d rest i hp hd
  simp only [step, hp, hd]

/-- Settles O5: the decoder rejects the descriptor before the state is looked at. -/
theorem reservedCmdRefused : Obligations.ReservedCmdRefused :=
  fun s _ _ hp hr => step_command_refused hp (decode_of_reserved hr s.params)

end Sys2Proof.Machine

namespace Sys2Proof.Machine

/-! The packed index fields of a block, read from its bytes (30_encoding.md R52, R60, R61). -/

/-! ### Bits of a little-endian number -/

theorem bytesAt_zero_length (bs : List Byte) : bytesAt bs 0 bs.length = bs :=
  List.take_length

/-- Settles O46: the whole list is the field of all its bytes. -/
theorem littleEndianWeighsBytes : Obligations.LittleEndianWeighsBytes := by
  intro bs
  have hsum := littleEndian_bytesAt bs 0 bs.length
  have hlt := littleEndian_bytesAt_lt bs 0 bs.length
  rw [bytesAt_zero_length] at hsum hlt
  simp only [Nat.zero_add] at hsum
  exact ⟨hsum, hlt⟩

theorem littleEndian_bytesAt_one (blk : List Byte) (i : Nat) :
    littleEndian (bytesAt blk i 1) = (blk.getD i 0#8).toNat := by
  rw [littleEndian_bytesAt]
  simp

/-- A field of a+b bytes is its first a bytes, and its last b bytes above them. -/
theorem littleEndian_bytesAt_add (blk : List Byte) (i a b : Nat) :
    littleEndian (bytesAt blk i (a + b)) =
      littleEndian (bytesAt blk i a) + 2 ^ (8 * a) * littleEndian (bytesAt blk (i + a) b) := by
  induction a generalizing i with
  | zero => simp [bytesAt, littleEndian]
  | succ a ih =>
    rw [Nat.add_right_comm, littleEndian_bytesAt_succ, littleEndian_bytesAt_succ, ih, Nat.add_right_comm i 1 a,
      Nat.add_assoc i a 1]
    ring

/-- Bits r .. r+m-1 of a field lie in its first n bytes when r + m ≤ 8n. -/
theorem littleEndian_slice_of_le (blk : List Byte) (i x : Nat) {n r m : Nat} (h : r + m ≤ 8 * n) :
    littleEndian (bytesAt blk i (n + x)) / 2 ^ r % 2 ^ m = littleEndian (bytesAt blk i n) / 2 ^ r % 2 ^ m := by
  obtain ⟨c, hc⟩ := Nat.exists_eq_add_of_le h
  rw [littleEndian_bytesAt_add, hc, Nat.pow_add, Nat.pow_add, Nat.mul_assoc, Nat.mul_assoc,
    Nat.add_mul_div_left _ _ (Nat.two_pow_pos r), Nat.add_mul_mod_self_left]

/-- The m bits at a position of a field of N bytes stand in the n bytes from the position's own byte on. -/
theorem littleEndian_slice (blk : List Byte) (i : Nat) {N n pos m : Nat} (hN : pos + m ≤ 8 * N)
    (hn : pos % 8 + m ≤ 8 * n) :
    littleEndian (bytesAt blk i N) / 2 ^ pos % 2 ^ m =
      littleEndian (bytesAt blk (i + pos / 8) n) / 2 ^ (pos % 8) % 2 ^ m := by
  have hpow : 2 ^ pos = 2 ^ (8 * (pos / 8)) * 2 ^ (pos % 8) := by rw [← Nat.pow_add, Nat.div_add_mod]
  calc littleEndian (bytesAt blk i N) / 2 ^ pos % 2 ^ m
      = littleEndian (bytesAt blk i (pos / 8 + (n + N))) / 2 ^ pos % 2 ^ m := by
        rw [show pos / 8 + (n + N) = N + (pos / 8 + n) by omega, littleEndian_slice_of_le _ _ _ hN]
    _ = littleEndian (bytesAt blk (i + pos / 8) (n + N)) / 2 ^ (pos % 8) % 2 ^ m := by
        rw [littleEndian_bytesAt_add, hpow, ← Nat.div_div_eq_div_mul, Nat.add_mul_div_left _ _ (Nat.two_pow_pos _),
          Nat.div_eq_of_lt (littleEndian_bytesAt_lt ..), Nat.zero_add]
    _ = littleEndian (bytesAt blk (i + pos / 8) n) / 2 ^ (pos % 8) % 2 ^ m := littleEndian_slice_of_le _ _ _ hn

/-! ### The two index fields -/

/-- EXTRACT takes the n bits at position np (43_bitstream.md R83). -/
theorem extract_eq (word n p : Nat) : extract word n p = word / 2 ^ (n * p) % 2 ^ n := by
  rw [extract, Nat.shiftRight_eq_div_pow, Nat.one_shiftLeft, Nat.and_two_pow_sub_one_eq_mod]

theorem colorIndex_val (cidx : Word) (p : Nat) : (colorIndex cidx p).val = cidx.toNat / 2 ^ (2 * p) % 2 ^ 2 := by
  rw [colorIndex, Fin.val_ofNat, extract_eq]
  exact Nat.mod_mod ..

theorem alphaIndex_val (aidx : BitVec 48) (p : Nat) :
    (alphaIndex aidx p).val = aidx.toNat / 2 ^ (3 * p) % 2 ^ 3 := by
  rw [alphaIndex, Fin.val_ofNat, extract_eq]
  exact Nat.mod_mod ..

/-- Settles O48: the two bits at 2p of CIDX stand at 2*(p mod 4) of its byte p div 4. -/
theorem colorIndexFromBlockByte : Obligations.ColorIndexFromBlockByte := by
  intro blk i p _ _ hp
  have hbyte : 2 * p / 8 = p / 4 := by omega
  have hbit : 2 * p % 8 = 2 * (p % 4) := by omega
  have hword : (colorWord blk i).toNat = littleEndian (bytesAt blk i 4) :=
    Nat.mod_eq_of_lt (littleEndian_bytesAt_lt blk i 4)
  rw [colorIndex_val, hword, littleEndian_slice (n := 1) _ _ (by omega) (by omega), hbyte, hbit, littleEndian_bytesAt_one]
  rfl

/-- Settles O49: the three bits at 3p of AIDX stand at 3p mod 8 of the two bytes from its byte 3p div 8 on. -/
theorem alphaIndexFromBlockBytes : Obligations.AlphaIndexFromBlockBytes := by
  intro blk p _ hp
  have hword : (alphaWord blk).toNat = littleEndian (bytesAt blk 2 6) :=
    Nat.mod_eq_of_lt (littleEndian_bytesAt_lt blk 2 6)
  rw [alphaIndex_val, hword, littleEndian_slice (n := 2) _ _ (by omega) (by omega), littleEndian_bytesAt_succ,
    littleEndian_bytesAt_one, Nat.add_right_comm 2 _ 1]
  rfl

end Sys2Proof.Machine

namespace Sys2Proof.Machine

/-! A BUSY unit ends: each of its steps ends the command or leaves one step fewer to take (70_reset_and_hazards.md R128),
whether it moves on its own or under a host that waits (30_encoding.md R64). -/

/-! ### How many steps are left -/

/-- The blocks of the grid from the cursor's on, in row-major order. -/
def State.blocksLeft (s : State) : Nat :=
  gridDim s.latch.width * gridDim s.latch.height - (s.cursor.row * gridDim s.latch.width + s.cursor.col)

/-- The most steps a BUSY unit takes to the end of its command: two a block, one fewer once its tile waits, and one for an
empty grid (logs 2 and 19). -/
def State.stepsLeft (s : State) : Nat :=
  if emptyGrid s.latch.width s.latch.height then 1
  else
    match s.stage with
    | .read => 2 * s.blocksLeft
    | .blit => 2 * s.blocksLeft - 1

theorem stepsLeft_of_read {s : State} (he : emptyGrid s.latch.width s.latch.height = false) (hst : s.stage = .read) :
    s.stepsLeft = 2 * s.blocksLeft := by
  simp [State.stepsLeft, he, hst]

theorem stepsLeft_of_blit {s : State} (he : emptyGrid s.latch.width s.latch.height = false) (hst : s.stage = .blit) :
    s.stepsLeft = 2 * s.blocksLeft - 1 := by
  simp [State.stepsLeft, he, hst]

theorem stepsLeft_le (s : State) : s.stepsLeft ≤ stepsToDone s.latch.width s.latch.height := by
  unfold State.stepsLeft State.blocksLeft stepsToDone
  split
  · exact Nat.le_refl 1
  · split <;> omega

theorem State.Running.blocksLeft_pos {s : State} (h : s.Running)
    (he : emptyGrid s.latch.width s.latch.height = false) : 0 < s.blocksLeft := by
  obtain ⟨hcol, hrow⟩ := h.inGrid he
  exact Nat.sub_pos_of_lt (blockIndex_lt hcol hrow)

theorem afterBlit_blocksLeft {s : State} (h : s.Running) (he : emptyGrid s.latch.width s.latch.height = false)
    (hlast : s.cursor.isLast s.latch.width s.latch.height = false) : s.afterBlit.blocksLeft = s.blocksLeft - 1 := by
  obtain ⟨hcol, hrow⟩ := h.inGrid he
  obtain ⟨-, -, hindex, -⟩ := advance_index hcol hrow hlast (Config.blockBytes s.latch.variant)
  exact congrArg (gridDim s.latch.width * gridDim s.latch.height - ·) hindex

/-- A step of a running command ends it, in DONE or in ERROR, or leaves it running with one step fewer. -/
theorem unitStep_ends_or_counts_down {s : State} (h : s.Running) :
    0 < s.stepsLeft ∧ ((unitStep s).status = 0x00000002#32 ∨ (unitStep s).status = 0x00000013#32) ∨
      (unitStep s).status = s.status ∧ (unitStep s).stepsLeft + 1 = s.stepsLeft := by
  obtain ⟨-, he, hu⟩ | ⟨hst, he, -, hu⟩ | ⟨hst, he, -, hu⟩ | ⟨hst, -, hu⟩ | ⟨hst, hlast, hu⟩ := unitStep_cases s <;>
    rw [hu]
  · refine .inl ⟨?_, by simp⟩
    rw [State.stepsLeft, if_pos he]
    exact Nat.one_pos
  · have hpos := h.blocksLeft_pos he
    refine .inl ⟨?_, by simp⟩
    rw [stepsLeft_of_read he hst]
    omega
  · have hpos := h.blocksLeft_pos he
    have hleft : s.afterRead.stepsLeft = 2 * s.blocksLeft - 1 := stepsLeft_of_blit (s := s.afterRead) he rfl
    refine .inr ⟨rfl, ?_⟩
    rw [stepsLeft_of_read he hst, hleft]
    omega
  · obtain ⟨he, -⟩ := h.decoded hst
    have hpos := h.blocksLeft_pos he
    refine .inl ⟨?_, by simp⟩
    rw [stepsLeft_of_blit he hst]
    omega
  · obtain ⟨he, -⟩ := h.decoded hst
    have hpos := h.blocksLeft_pos he
    have hleft : s.afterBlit.stepsLeft = 2 * s.afterBlit.blocksLeft := stepsLeft_of_read (s := s.afterBlit) he rfl
    refine .inr ⟨rfl, ?_⟩
    rw [stepsLeft_of_blit he hst, hleft, afterBlit_blocksLeft h he hlast]
    omega

/-! ### The run to the end -/

/-- A BUSY unit that moves with its turns kept, alone or under WAIT, moves so in every BUSY state with the same turns. -/
theorem UnitMoves.of_same_pending {s t : State} (h : UnitMoves s s.pending) (hp : t.pending = s.pending)
    (hb : t.isBusy = true) : UnitMoves t t.pending := by
  rw [hp]
  rcases h with ⟨hnil, -⟩ | hunit | ⟨-, -, more, hwait⟩
  · exact .inl ⟨hp.trans hnil, hnil⟩
  · exact .inr (.inl (hp.trans hunit))
  · exact .inr (.inr ⟨hb, hp.symm, more, hp.trans hwait⟩)

/-- While no turn is used up, a BUSY unit reaches DONE or ERROR within the steps that are left (R128). -/
theorem run_to_end {s : State} (h : s.Inv) (hb : s.isBusy = true) (hmoves : UnitMoves s s.pending) :
    ∃ n t, n ≤ s.stepsLeft ∧ Host.Core.run Sys2Proof.core n s = .next t ∧ t.pending = s.pending ∧
      (t.status = 0x00000002#32 ∨ t.status = 0x00000013#32) := by
  induction hk : s.stepsLeft generalizing s with
  | zero =>
    have := unitStep_ends_or_counts_down (h.running hb)
    omega
  | succ k ih =>
    have hstep : step s = .next (unitStep s) := (step_of_unitMoves hmoves).trans (congrArg _ (unitTurn_of_busy hb))
    obtain ⟨-, hpend, -⟩ := unitStep_host_fields s
    rcases unitStep_ends_or_counts_down (h.running hb) with ⟨-, hend⟩ | ⟨hstatus, hleft⟩
    · exact ⟨1, unitStep s, by omega, run_succ hstep 0, hpend, hend⟩
    · have hb' : (unitStep s).isBusy = true := (isBusy_congr hstatus).trans hb
      obtain ⟨n, t, hn, hrun, hpend', hend⟩ :=
        ih (unitStep_inv h hb) hb' (hmoves.of_same_pending hpend hb') (by omega)
      exact ⟨n + 1, t, by omega, (run_succ hstep n).trans hrun, hpend'.trans hpend, hend⟩

/-! ### WAIT -/

theorem step_wait_of_busy {s : State} {rest : List Turn} (hb : s.isBusy = true)
    (hp : s.pending = .host .wait :: rest) : step s = .next (unitStep s) := by
  rw [step_wait hp, hostWait, if_pos hb]

theorem step_wait_of_not_busy {s : State} {rest : List Turn} (hb : s.isBusy = false)
    (hp : s.pending = .host .wait :: rest) : step s = .next { s with pending := rest, readData := s.status } := by
  rw [step_wait hp, hostWait, hb]
  rfl

/-- The unit's step does not look at the turns to come. -/
theorem unitStep_popped (s : State) (rest : List Turn) : unitStep (s.popped rest) = (unitStep s).popped rest := by
  rcases unitStep_lockstep (s := s) (t := s.popped rest) rfl rfl rfl with
    ⟨hs, ht⟩ | ⟨hs, ht⟩ | ⟨hs, ht⟩ | ⟨-, hs, ht⟩ | ⟨-, hs, ht⟩ <;> rw [hs, ht] <;> rfl

/-- From a BUSY state WAIT ends, one step after the command does, the host having read the final STATUS. -/
theorem run_wait {s : State} {rest : List Turn} (h : s.Inv) (hb : s.isBusy = true)
    (hp : s.pending = .host .wait :: rest) :
    ∃ n t, n ≤ s.stepsLeft + 1 ∧ Host.Core.run Sys2Proof.core n s = .next t ∧ t.pending = rest ∧
      t.readData = t.status ∧ (t.status = 0x00000002#32 ∨ t.status = 0x00000013#32) := by
  obtain ⟨n, u, hn, hrun, hpend, hend⟩ := run_to_end h hb (.inr (.inr ⟨hb, rfl, rest, hp⟩))
  have hlast := step_wait_of_not_busy (not_isBusy_of_status (.inr hend)) (hpend.trans hp)
  exact ⟨n + 1, _, by omega, (run_add hrun 1).trans (run_succ hlast 0), rfl, rfl, hend⟩

/-- Settles O27: WAIT in a unit that is not BUSY, one step of it while BUSY, and the run to its end. -/
theorem waitReturnsFinalStatus : Obligations.WaitReturnsFinalStatus := by
  refine ⟨fun s rest hb hp => step_wait_of_not_busy hb hp, fun s rest hb hp => ?_, fun s rest h hb hp => ?_⟩
  · obtain ⟨-, hpend, hread⟩ := unitStep_host_fields s
    refine ⟨unitStep s, step_wait_of_busy hb hp, hpend, hread, ?_⟩
    exact (step_of_busy (s := s.popped []) rfl hb).trans (congrArg _ (unitStep_popped s []))
  · obtain ⟨n, t, hn, hend⟩ := run_wait h hb hp
    exact ⟨n, t, hn.trans (Nat.succ_le_succ (stepsLeft_le s)), hend⟩

end Sys2Proof.Machine

namespace Sys2Proof.Machine

/-! The color codec's words and channels as naturals (40_color_codec.md R67 to R70): fields that do not overlap are joined
by OR as by addition. -/

/-! ### Fields joined by OR -/

/-- ORing a shifted field onto one that ends below it adds the two. -/
theorem toNat_or_shiftLeft {n k : Nat} {x y : BitVec n} (hx : x.toNat * 2 ^ k < 2 ^ n) (hy : y.toNat < 2 ^ k) :
    (y ||| x <<< k).toNat = y.toNat + x.toNat * 2 ^ k := by
  rw [BitVec.toNat_or, BitVec.toNat_shiftLeft, Nat.shiftLeft_eq, Nat.mod_eq_of_lt hx, Nat.or_comm, Nat.mul_comm,
    ← Nat.two_pow_add_eq_or_of_lt hy, Nat.add_comm]

/-! ### UNPACK565 -/

/-- A field left-aligned in 8 bits, with those of its top bits that fit put into the space below it (R67). -/
theorem toNat_expand {n k j : Nat} (x : BitVec n) (hn : n + k = 8) (hj : n ≤ j + k) :
    (x.setWidth 8 <<< k ||| x.setWidth 8 >>> j).toNat = x.toNat * 2 ^ k + x.toNat / 2 ^ j := by
  have hx : (x.setWidth 8).toNat = x.toNat := BitVec.toNat_setWidth_of_le (by omega)
  have hup : x.toNat * 2 ^ k < 2 ^ 8 := by
    rw [← hn, Nat.pow_add]
    exact Nat.mul_lt_mul_of_pos_right x.isLt (Nat.two_pow_pos k)
  have hdown : (x.setWidth 8 >>> j).toNat = x.toNat / 2 ^ j := by
    rw [BitVec.toNat_ushiftRight, hx, Nat.shiftRight_eq_div_pow]
  have hlow : x.toNat / 2 ^ j < 2 ^ k := by
    rw [Nat.div_lt_iff_lt_mul (Nat.two_pow_pos j), Nat.mul_comm, ← Nat.pow_add]
    exact x.isLt.trans_le (Nat.pow_le_pow_right two_pos hj)
  rw [BitVec.or_comm, toNat_or_shiftLeft (hx ▸ hup) (hdown ▸ hlow), hx, hdown, Nat.add_comm]

theorem expand5_toNat (x : BitVec 5) : (expand5 x).toNat = x.toNat * 8 + x.toNat / 4 :=
  toNat_expand (k := 3) (j := 2) x rfl (by omega)

theorem expand6_toNat (x : BitVec 6) : (expand6 x).toNat = x.toNat * 4 + x.toNat / 16 :=
  toNat_expand (k := 2) (j := 4) x rfl (by omega)

/-- Settles O35: the channels' fields are digits of the word, the topmost of which needs no remainder. -/
theorem unpack565ReplicatesTopBits : Obligations.Unpack565ReplicatesTopBits := by
  intro w
  have hr : w.toNat / 2048 % 32 = w.toNat / 2048 := Nat.mod_eq_of_lt (by omega)
  simp only [unpack565, expand5_toNat, expand6_toNat, BitVec.extractLsb'_toNat, Nat.shiftRight_eq_div_pow]
  norm_num [hr]

/-! ### PACKRGBA and UNPACKRGBA -/

theorem packRgba_toNat (r g b a : Byte) :
    (packRgba r g b a).toNat = b.toNat + g.toNat * 2 ^ 8 + r.toNat * 2 ^ 16 + a.toNat * 2 ^ 24 := by
  have hbyte (c : Byte) : (c.setWidth 32).toNat = c.toNat := BitVec.toNat_setWidth_of_le (by omega)
  have hg : (b.setWidth 32 ||| g.setWidth 32 <<< 8).toNat = b.toNat + g.toNat * 2 ^ 8 := by
    rw [toNat_or_shiftLeft] <;> simp only [hbyte] <;> omega
  have hr : (b.setWidth 32 ||| g.setWidth 32 <<< 8 ||| r.setWidth 32 <<< 16).toNat =
      b.toNat + g.toNat * 2 ^ 8 + r.toNat * 2 ^ 16 := by
    rw [toNat_or_shiftLeft] <;> simp only [hbyte, hg] <;> omega
  rw [packRgba, toNat_or_shiftLeft] <;> simp only [hbyte, hr] <;> omega

/-- Settles O36: each byte is ORed onto the bytes below it. -/
theorem packRgbaLaysOutChannels : Obligations.PackRgbaLaysOutChannels :=
  packRgba_toNat

/-- The channels of a packed word are the bytes it was packed from. -/
@[simp] theorem unpackRgba_packRgba (r g b a : Byte) :
    unpackRgba (packRgba r g b a) = { r := r, g := g, b := b, a := a } := by
  rw [unpackRgba, Rgba.mk.injEq]
  refine ⟨?_, ?_, ?_, ?_⟩ <;>
  · refine BitVec.eq_of_toNat_eq ?_
    rw [BitVec.extractLsb'_toNat, Nat.shiftRight_eq_div_pow, packRgba_toNat]
    omega

/-- A word is packed from its own channels. -/
@[simp] theorem packRgba_unpackRgba (u : Word) :
    packRgba (unpackRgba u).r (unpackRgba u).g (unpackRgba u).b (unpackRgba u).a = u := by
  refine BitVec.eq_of_toNat_eq ?_
  simp only [packRgba_toNat, unpackRgba, BitVec.extractLsb'_toNat, Nat.shiftRight_eq_div_pow]
  omega

/-- Settles O37: a word and its channels are the digits of one number to base 256. -/
theorem packUnpackInverse : Obligations.PackUnpackInverse :=
  ⟨unpackRgba_packRgba, packRgba_unpackRgba⟩

end Sys2Proof.Machine

namespace Sys2Proof.Machine

/-! The palette interpolator (41_palette.md R72 to R77): the interpolants on naturals, the channels of an entry, and each
palette on either order of its endpoints. -/

/-! ### The interpolants -/

@[simp] theorem w23_toNat (x0 x1 : Byte) : (w23 x0 x1).toNat = (2 * x0.toNat + x1.toNat) / 3 :=
  Nat.mod_eq_of_lt (by omega)

@[simp] theorem w13_toNat (x0 x1 : Byte) : (w13 x0 x1).toNat = (x0.toNat + 2 * x1.toNat) / 3 :=
  Nat.mod_eq_of_lt (by omega)

@[simp] theorem avg_toNat (x0 x1 : Byte) : (avg x0 x1).toNat = (x0.toNat + x1.toNat) / 2 :=
  Nat.mod_eq_of_lt (by omega)

/-- Settles O41: a truncated weighted mean of two bytes fits a byte and stays between them. -/
theorem interpolantsExactAndBetween : Obligations.InterpolantsExactAndBetween := by
  refine fun x0 x1 => ⟨w23_toNat x0 x1, w13_toNat x0 x1, avg_toNat x0 x1, ?_⟩
  simp only [List.forall_mem_cons, w23_toNat, w13_toNat, avg_toNat]
  refine ⟨?_, ?_, ?_, nofun⟩ <;> omega

/-! ### The entries -/

section
variable (f : Byte → Byte → Byte) (x y : Rgb)

@[simp] theorem Rgb.zip_r : (Rgb.zip f x y).r = f x.r y.r := rfl
@[simp] theorem Rgb.zip_g : (Rgb.zip f x y).g = f x.g y.g := rfl
@[simp] theorem Rgb.zip_b : (Rgb.zip f x y).b = f x.b y.b := rfl

end

@[simp] theorem unpackRgba_entry (x : Rgb) (alpha : Byte) : unpackRgba (x.entry alpha) = ⟨x.r, x.g, x.b, alpha⟩ :=
  unpackRgba_packRgba x.r x.g x.b alpha

theorem extractLsb'_entry (x : Rgb) (alpha : Byte) : (x.entry alpha).extractLsb' 24 8 = alpha :=
  congrArg Rgba.a (unpackRgba_entry x alpha)

/-! ### The palettes -/

section
variable {c0 c1 : Half}

theorem paletteA_of_lt (h : c1.toNat < c0.toNat) :
    paletteA c0 c1 = #v[(unpack565 c0).entry 255, (unpack565 c1).entry 255,
      (Rgb.zip w23 (unpack565 c0) (unpack565 c1)).entry 255, (Rgb.zip w13 (unpack565 c0) (unpack565 c1)).entry 255] :=
  if_pos h

theorem paletteA_of_le (h : c0.toNat ≤ c1.toNat) :
    paletteA c0 c1 = #v[(unpack565 c0).entry 255, (unpack565 c1).entry 255,
      (Rgb.zip avg (unpack565 c0) (unpack565 c1)).entry 255, packRgba 0 0 0 0] :=
  if_neg h.not_gt

/-- PALETTE_B takes the comparison's first branch to the palette PALETTE_C always builds (R74, R75). -/
theorem paletteB_of_lt (h : c1.toNat < c0.toNat) : paletteB c0 c1 = paletteC c0 c1 :=
  congrArg (fun x => #v[_, _, Rgb.entry x 0, _]) (if_pos h)

/-- On the other branch PALETTE_B differs from PALETTE_C in entry 2 alone. -/
theorem paletteB_of_le (h : c0.toNat ≤ c1.toNat) :
    paletteB c0 c1 = (paletteC c0 c1).set 2 ((Rgb.zip avg (unpack565 c0) (unpack565 c1)).entry 0) :=
  congrArg (fun x => #v[_, _, Rgb.entry x 0, _]) (if_neg h.not_gt)

end

/-- Settles O38: each order of the endpoints leaves one of the two branches, whose entries are read channel by channel. -/
theorem paletteAEntries : Obligations.PaletteAEntries := by
  intro c0 c1
  obtain h | h := Nat.lt_or_ge c1.toNat c0.toNat
  · simp [paletteA_of_lt h, h, h.not_ge, Vector.get_eq_getElem]
  · simp [paletteA_of_le h, h, h.not_gt, Vector.get_eq_getElem]

/-- Settles O40: no branch to take, so the entries are read channel by channel at once. -/
theorem paletteCEntries : Obligations.PaletteCEntries := by
  intro c0 c1
  simp [paletteC, Vector.get_eq_getElem]

/-- Settles O39: in either order entries 0, 1 and 3 are those of PALETTE_C, and so is entry 2 when c0 is the greater. -/
theorem paletteBEntries : Obligations.PaletteBEntries := by
  intro c0 c1
  obtain ⟨he0, he1, hr, hg, hb, ha, he3⟩ := paletteCEntries c0 c1
  obtain h | h := Nat.lt_or_ge c1.toNat c0.toNat
  · rw [paletteB_of_lt h]
    exact ⟨he0, he1, fun _ => ⟨hr, hg, hb⟩, fun hle => absurd h hle.not_gt, ha, he3⟩
  · rw [paletteB_of_le h]
    refine ⟨he0, he1, fun hlt => absurd hlt h.not_gt, fun _ => ?_, ?_, he3⟩ <;> simp [Vector.get_eq_getElem]

/-- Settles O42: every entry is packed with alpha 0. -/
theorem paletteBCAlphaZero : Obligations.PaletteBCAlphaZero := by
  intro c0 c1 k
  fin_cases k <;> exact ⟨extractLsb'_entry _ 0, extractLsb'_entry _ 0⟩

end Sys2Proof.Machine

namespace Sys2Proof.Machine

/-! The alpha tables (42_alpha.md R79 to R82): the nibbles of a variant B block, and the gradients of variant C, whose
steps run from one endpoint to the other. -/

/-! ### ALPHA_TABLE_B -/

/-- Pixel p's nibble stands at 4*(p mod 2) of block byte p div 2 (R62). -/
theorem alphaNibble_eq (blk : List Byte) (p : Nat) :
    alphaNibble blk p = (blk.getD (p / 2) 0#8).toNat / 2 ^ (4 * (p % 2)) % 2 ^ 4 := by
  have hword : (half blk (2 * (p / 4))).toNat = littleEndian (bytesAt blk (2 * (p / 4)) 2) :=
    Nat.mod_eq_of_lt (littleEndian_bytesAt_lt blk _ 2)
  have hbyte : 2 * (p / 4) + 4 * (p % 4) / 8 = p / 2 := by omega
  have hbit : 4 * (p % 4) % 8 = 4 * (p % 2) := by omega
  rw [alphaNibble, extract_eq, hword, littleEndian_slice (n := 1) _ _ (by omega) (by omega), hbyte, hbit,
    littleEndian_bytesAt_one]

theorem alphaTableB_get_toNat (blk : List Byte) (p : Fin 16) :
    ((alphaTableB blk).get p).toNat = 17 * alphaNibble blk p := by
  have hlt : alphaNibble blk p < 16 := by
    rw [alphaNibble_eq]
    exact Nat.mod_lt _ (by decide)
  simp only [alphaTableB, Vector.get_eq_getElem, Vector.getElem_ofFn, BitVec.toNat_ofNat]
  omega

/-- Settles O43: the nibble of an even pixel stands at bit 0 of its byte, that of an odd pixel at bit 4. -/
theorem alphaTableBExpandsNibbles : Obligations.AlphaTableBExpandsNibbles := by
  intro blk p _
  rw [alphaTableB_get_toNat, alphaNibble_eq]
  obtain hp | hp := Nat.mod_two_eq_zero_or_one p.val
  · simp [hp]
  · have hlt : (blk.getD (p.val / 2) 0#8).toNat / 16 < 16 := by omega
    rw [hp, if_neg Nat.one_ne_zero]
    exact congrArg (17 * ·) (Nat.mod_eq_of_lt hlt)

/-! ### The steps of a gradient -/

section
variable {a0 a1 : Byte} {n j k : Nat}

/-- A step is exact on naturals: a weighted mean of two bytes fits a byte (R81). -/
theorem alphaStep_toNat (hn : 0 < n) (hk : k ≤ n) :
    (alphaStep a0 a1 n k).toNat = (a0.toNat * (n - k) + a1.toNat * k) / n := by
  have hsum : a0.toNat * (n - k) + a1.toNat * k ≤ 255 * n :=
    calc a0.toNat * (n - k) + a1.toNat * k
        ≤ 255 * (n - k) + 255 * k := by gcongr <;> omega
      _ = 255 * n := by omega
  exact Nat.mod_eq_of_lt (Nat.div_lt_of_lt_mul (by omega))

theorem alphaStep_first (hn : 0 < n) : alphaStep a0 a1 n 0 = a0 := by
  refine BitVec.eq_of_toNat_eq ?_
  rw [alphaStep_toNat hn n.zero_le, Nat.sub_zero, Nat.mul_zero, Nat.add_zero, Nat.mul_div_cancel _ hn]

/-- The same gradient, run from the other endpoint. -/
theorem alphaStep_swap (hk : k ≤ n) : alphaStep a0 a1 n k = alphaStep a1 a0 n (n - k) := by
  rw [alphaStep, alphaStep, Nat.sub_sub_self hk, Nat.add_comm]

theorem alphaStep_last (hn : 0 < n) : alphaStep a0 a1 n n = a1 := by
  rw [alphaStep_swap le_rfl, Nat.sub_self, alphaStep_first hn]

/-- From the greater endpoint to the lesser the steps do not increase: each moves weight from a0 to a1 (R82). -/
theorem alphaStep_antitone (ha : a1.toNat ≤ a0.toNat) (hn : 0 < n) (hjk : j ≤ k) (hk : k ≤ n) :
    (alphaStep a0 a1 n k).toNat ≤ (alphaStep a0 a1 n j).toNat := by
  rw [alphaStep_toNat hn hk, alphaStep_toNat hn (hjk.trans hk)]
  refine Nat.div_le_div_right ?_
  calc a0.toNat * (n - k) + a1.toNat * k
      = a0.toNat * (n - k) + (a1.toNat * (k - j) + a1.toNat * j) := by rw [← Nat.mul_add, Nat.sub_add_cancel hjk]
    _ ≤ a0.toNat * (n - k) + (a0.toNat * (k - j) + a1.toNat * j) := by gcongr
    _ = a0.toNat * (n - j) + a1.toNat * j := by
        rw [← Nat.add_assoc, ← Nat.mul_add, Nat.sub_add_sub_cancel hk hjk]

/-- From the lesser endpoint to the greater they do not decrease. -/
theorem alphaStep_monotone (ha : a0.toNat ≤ a1.toNat) (hn : 0 < n) (hjk : j ≤ k) (hk : k ≤ n) :
    (alphaStep a0 a1 n j).toNat ≤ (alphaStep a0 a1 n k).toNat := by
  rw [alphaStep_swap (hjk.trans hk), alphaStep_swap hk]
  exact alphaStep_antitone ha hn (Nat.sub_le_sub_left hjk n) (n.sub_le j)

/-- The steps lie between the endpoints, which are the gradient's first and last step. -/
theorem alphaStep_between_of_ge (ha : a1.toNat ≤ a0.toNat) (hn : 0 < n) (hk : k ≤ n) :
    a1.toNat ≤ (alphaStep a0 a1 n k).toNat ∧ (alphaStep a0 a1 n k).toNat ≤ a0.toNat := by
  have hlast := alphaStep_antitone ha hn hk le_rfl
  have hfirst := alphaStep_antitone ha hn k.zero_le hk
  rw [alphaStep_last hn] at hlast
  rw [alphaStep_first hn] at hfirst
  exact ⟨hlast, hfirst⟩

theorem alphaStep_between_of_le (ha : a0.toNat ≤ a1.toNat) (hn : 0 < n) (hk : k ≤ n) :
    a0.toNat ≤ (alphaStep a0 a1 n k).toNat ∧ (alphaStep a0 a1 n k).toNat ≤ a1.toNat := by
  rw [alphaStep_swap hk]
  exact alphaStep_between_of_ge ha hn (n.sub_le k)

/-! ### ALPHA_TABLE_C -/

theorem alphaTableC_of_lt (h : a1.toNat < a0.toNat) :
    alphaTableC a0 a1 = #v[a0, a1, alphaStep a0 a1 7 1, alphaStep a0 a1 7 2, alphaStep a0 a1 7 3,
      alphaStep a0 a1 7 4, alphaStep a0 a1 7 5, alphaStep a0 a1 7 6] :=
  if_pos h

theorem alphaTableC_of_le (h : a0.toNat ≤ a1.toNat) :
    alphaTableC a0 a1 = #v[a0, a1, alphaStep a0 a1 5 1, alphaStep a0 a1 5 2, alphaStep a0 a1 5 3,
      alphaStep a0 a1 5 4, 0#8, 255#8] :=
  if_neg h.not_gt

theorem alphaTableC_get_of_lt (h : a1.toNat < a0.toNat) (h2 : 2 ≤ k) (h7 : k ≤ 7) :
    (alphaTableC a0 a1).get (Fin.ofNat 8 k) = alphaStep a0 a1 7 (k - 1) := by
  rw [alphaTableC_of_lt h]
  interval_cases k <;> rfl

theorem alphaTableC_get_of_le (h : a0.toNat ≤ a1.toNat) (h2 : 2 ≤ k) (h5 : k ≤ 5) :
    (alphaTableC a0 a1).get (Fin.ofNat 8 k) = alphaStep a0 a1 5 (k - 1) := by
  rw [alphaTableC_of_le h]
  interval_cases k <;> rfl

end

/-- On either branch entries 0 and 1 are the endpoints. -/
theorem alphaTableC_get_endpoints (a0 a1 : Byte) :
    (alphaTableC a0 a1).get 0 = a0 ∧ (alphaTableC a0 a1).get 1 = a1 := by
  obtain h | h := Nat.lt_or_ge a1.toNat a0.toNat
  · rw [alphaTableC_of_lt h]
    exact ⟨rfl, rfl⟩
  · rw [alphaTableC_of_le h]
    exact ⟨rfl, rfl⟩

/-- Settles O44: the interpolated entries are steps of a gradient, of 7 steps or of 5. -/
theorem alphaTableCEntries : Obligations.AlphaTableCEntries := by
  intro a0 a1
  obtain ⟨he0, he1⟩ := alphaTableC_get_endpoints a0 a1
  refine ⟨he0, he1, fun h k hk1 hk6 => ?_, fun h => ⟨fun k hk1 hk4 => ?_, ?_, ?_⟩⟩
  · rw [alphaTableC_get_of_lt h (by omega) (by omega), Nat.add_sub_cancel, alphaStep_toNat (by decide) (by omega)]
  · rw [alphaTableC_get_of_le h (by omega) (by omega), Nat.add_sub_cancel, alphaStep_toNat (by decide) (by omega)]
  · rw [alphaTableC_of_le h]
    rfl
  · rw [alphaTableC_of_le h]
    rfl

/-- Settles O45: a gradient runs one way and stays between its endpoints. -/
theorem alphaTableCMonotone : Obligations.AlphaTableCMonotone := by
  intro a0 a1 t
  obtain ⟨he0, he1⟩ := alphaTableC_get_endpoints a0 a1
  refine ⟨congrArg BitVec.toNat he0, congrArg BitVec.toNat he1, fun h => ?_, fun h => ?_⟩
  · have ht (k : Nat) (h2 : 2 ≤ k) (h7 : k ≤ 7) : t k = (alphaStep a0 a1 7 (k - 1)).toNat :=
      congrArg BitVec.toNat (alphaTableC_get_of_lt h h2 h7)
    refine ⟨fun k h2 h6 => ?_, fun k h2 h7 => ?_⟩
    · rw [ht k h2 (by omega), ht (k + 1) (by omega) (by omega)]
      exact alphaStep_antitone h.le (by decide) (by omega) (by omega)
    · rw [ht k h2 h7]
      exact alphaStep_between_of_ge h.le (by decide) (by omega)
  · have ht (k : Nat) (h2 : 2 ≤ k) (h5 : k ≤ 5) : t k = (alphaStep a0 a1 5 (k - 1)).toNat :=
      congrArg BitVec.toNat (alphaTableC_get_of_le h h2 h5)
    refine ⟨fun k h2 h4 => ?_, fun k h2 h5 => ?_⟩
    · rw [ht k h2 (by omega), ht (k + 1) (by omega) (by omega)]
      exact alphaStep_monotone h (by decide) (by omega) (by omega)
    · rw [ht k h2 h5]
      exact alphaStep_between_of_le h (by decide) (by omega)

end Sys2Proof.Machine

namespace Sys2Proof.Machine

/-! The block decoders (44_block_decode.md R87 to R92): each tile byte is a channel of its pixel, and in variants B and C
the pixel's alpha stands in place of the 0 of its palette entry. -/

/-- Tile byte 4p + c is channel c of pixel p (R88). -/
theorem tileOf_get (px : Nat → Word) {p c : Nat} (hp : p < 16) (hc : c < 4) :
    (tileOf px).get (Fin.ofNat 64 (4 * p + c)) = (unpackRgba (px p)).channel c := by
  have hbyte : (4 * p + c) % 64 = 4 * p + c := Nat.mod_eq_of_lt (by omega)
  have hpixel : (4 * p + c) / 4 = p := by omega
  have hchannel : (4 * p + c) % 4 = c := by omega
  simp only [tileOf, Vector.get_eq_getElem, Vector.getElem_ofFn, Fin.ofNat, hbyte, hpixel, hchannel]

@[simp] theorem withAlpha_packRgba_zero (r g b alpha : Byte) :
    withAlpha (packRgba r g b 0) alpha = packRgba r g b alpha := by
  simp [withAlpha, packRgba]

/-- An alpha put into an entry whose own is 0 becomes the entry's alpha; the other channels stay. -/
theorem unpackRgba_withAlpha {entry : Word} (h : entry.extractLsb' 24 8 = 0#8) (alpha : Byte) :
    unpackRgba (withAlpha entry alpha) = { unpackRgba entry with a := alpha } := by
  have hentry : packRgba (unpackRgba entry).r (unpackRgba entry).g (unpackRgba entry).b 0 = entry :=
    (congrArg (packRgba _ _ _) h.symm).trans (packRgba_unpackRgba entry)
  calc unpackRgba (withAlpha entry alpha)
      = unpackRgba (packRgba (unpackRgba entry).r (unpackRgba entry).g (unpackRgba entry).b alpha) := by
        rw [← withAlpha_packRgba_zero, hentry]
    _ = { unpackRgba entry with a := alpha } := unpackRgba_packRgba _ _ _ _

/-- The four tile bytes of a pixel that is an entry of alpha 0 joined with an alpha (R88, R92). -/
theorem tileOf_get_withAlpha {px : Nat → Word} {p : Nat} {entry : Word} {alpha : Byte}
    (hpx : px p = withAlpha entry alpha) (hzero : entry.extractLsb' 24 8 = 0#8) (hp : p < 16) :
    (tileOf px).get (Fin.ofNat 64 (4 * p)) = (unpackRgba entry).r ∧
      (tileOf px).get (Fin.ofNat 64 (4 * p + 1)) = (unpackRgba entry).g ∧
      (tileOf px).get (Fin.ofNat 64 (4 * p + 2)) = (unpackRgba entry).b ∧
      (tileOf px).get (Fin.ofNat 64 (4 * p + 3)) = alpha := by
  have hbyte (c : Nat) (hc : c < 4) : (tileOf px).get (Fin.ofNat 64 (4 * p + c)) =
      Rgba.channel { unpackRgba entry with a := alpha } c := by
    rw [tileOf_get px hp hc, hpx, unpackRgba_withAlpha hzero]
  exact ⟨hbyte 0 (by decide), hbyte 1 (by decide), hbyte 2 (by decide), hbyte 3 (by decide)⟩

/-- Settles O50: a pixel of variant A is its palette entry, alpha and all. -/
theorem decodeBlockAWritesTile : Obligations.DecodeBlockAWritesTile :=
  fun _ _ => ⟨rfl, rfl, fun _ _ hp hc => tileOf_get _ hp hc, rfl, rfl, rfl⟩

/-- Settles O51: every entry of PALETTE_B has alpha 0, so a pixel's alpha is that of ALPHA_B. -/
theorem decodeBlockBWritesTile : Obligations.DecodeBlockBWritesTile := by
  intro blk sc
  refine ⟨rfl, rfl, rfl, fun p hp => ?_, rfl, rfl⟩
  obtain ⟨hzero, -⟩ := paletteBCAlphaZero (half blk 8) (half blk 10) (colorIndex (colorWord blk 12) p)
  exact tileOf_get_withAlpha rfl hzero hp

/-- Settles O52: every entry of PALETTE_C has alpha 0, so a pixel's alpha is that of ALPHA_C at its alpha index. -/
theorem decodeBlockCWritesTile : Obligations.DecodeBlockCWritesTile := by
  intro blk sc
  refine ⟨rfl, rfl, rfl, rfl, fun p hp => ?_, rfl⟩
  obtain ⟨-, hzero⟩ := paletteBCAlphaZero (half blk 8) (half blk 10) (colorIndex (colorWord blk 12) p)
  exact tileOf_get_withAlpha rfl hzero hp

/-- Settles O53: each decoder writes PAL and TILE from the block's fields alone. -/
theorem tileDependsOnBlockAlone : Obligations.TileDependsOnBlockAlone := by
  intro v blk sc sc'
  refine ⟨(decodeBlock_tile v blk sc).trans (decodeBlock_tile v blk sc').symm, ?_⟩
  cases v with
  | A => rfl
  | B => rfl
  | C => rfl

end Sys2Proof.Machine

namespace Sys2Proof.Machine

/-! The grid and what its blits write (45_blit_and_commands.md R93 to R99): where a block stands in the grid's list, how
many bytes a block's blit writes, and that all of them together write each DST offset once. -/

/-! ### The grid's list -/

/-- Rows of equal length, joined: position row*m + col is entry col of that row. -/
theorem getElem?_flatMap_range {α : Type} {f : Nat → List α} {m : Nat} (hlen : ∀ y, (f y).length = m)
    {n row col : Nat} (hrow : row < n) (hcol : col < m) :
    ((List.range n).flatMap f)[row * m + col]? = (f row)[col]? := by
  induction n with
  | zero => cases hrow
  | succ n ih =>
    have hn : ((List.range n).flatMap f).length = n * m := by simp [List.length_flatMap, hlen]
    rw [List.range_succ, List.flatMap_append, List.flatMap_singleton]
    rcases Nat.lt_succ_iff_lt_or_eq.1 hrow with hlt | rfl
    · have hin : row * m + col < n * m := by
        rw [Nat.mul_comm n]
        exact blockIndex_lt hcol hlt
      rw [List.getElem?_append_left (by rw [hn]; exact hin), ih hlt]
    · rw [List.getElem?_append_right (by omega), hn, Nat.add_sub_cancel_left]

theorem gridBlocks_getElem? {w h col row : Nat} (hcol : col < gridDim w) (hrow : row < gridDim h) :
    (gridBlocks w h)[row * gridDim w + col]? = some (col, row) := by
  rw [gridBlocks, getElem?_flatMap_range (fun y => by simp) hrow hcol]
  simp [hcol]

/-! ### How much a blit writes -/

/-- Settles O54: only the last column can be narrower than four. -/
theorem validWidthClipsLastColumn : Obligations.ValidWidthClipsLastColumn := by
  intro w col hcol
  unfold validWidth gridDim at *
  split <;> omega

/-- Of n rows from row a on, those above h each add m. -/
theorem sum_rows_below (a h m n : Nat) :
    ((List.range n).map fun i => if a + i < h then m else 0).sum = min n (h - a) * m := by
  induction n with
  | zero => simp
  | succ n ih =>
    rw [List.range_succ, List.map_append, List.sum_append, ih, List.map_singleton, List.sum_singleton]
    split
    · rw [show min (n + 1) (h - a) = min n (h - a) + 1 by omega, Nat.add_one_mul]
    · rw [show min (n + 1) (h - a) = min n (h - a) by omega, Nat.add_zero]

/-- A block's blit writes four bytes for each pixel of its clipped rectangle. -/
theorem blitStores_length (w h col row : Nat) (tile : Vector Byte 64) :
    (blitStores w h col row tile).length = 4 * validWidth w col * min 4 (h - 4 * row) := by
  have hrow (i : Nat) :
      (if row * 4 + i < h then (List.range (validWidth w col)).flatMap fun j => blitPixel w col row tile i j
        else []).length = if row * 4 + i < h then validWidth w col * 4 else 0 := by
    split <;> simp [List.length_flatMap, blitPixel]
  simp only [blitStores, List.length_flatMap, hrow, sum_rows_below]
  rw [Nat.mul_comm row 4]
  ring

/-- Settles O55, with the rows of any block, one of the grid or not. -/
theorem blitWritesClippedRectangle : Obligations.BlitWritesClippedRectangle :=
  fun w h col row tile _ => blitStores_length w h col row tile

/-! ### One blit -/

/-- Settles O56: the blit's writes are the block's raster pixels, at distinct offsets. -/
theorem blitPlacesTilePixels : Obligations.BlitPlacesTilePixels := by
  refine fun m dst w h col row tile hcol => ⟨fun x y c hx hy hc hxc hyr => ?_, fun a => read_blit_other hcol⟩
  subst hxc hyr
  exact read_blit_pixel hx hy hc

/-! ### All blits of the grid -/

theorem sum_first_fours (n k : Nat) : ((List.range k).map fun j => min 4 (n - 4 * j)).sum = min (4 * k) n := by
  induction k with
  | zero => simp
  | succ k ih =>
    rw [List.range_succ, List.map_append, List.sum_append, ih, List.map_singleton, List.sum_singleton]
    omega

/-- Cut into fours, the last one clipped, n is the sum of its parts. -/
theorem sum_clipped_fours (n : Nat) : ((List.range (gridDim n)).map fun k => min 4 (n - 4 * k)).sum = n := by
  rw [sum_first_fours, gridDim]
  omega

theorem sum_validWidth (w : Nat) : ((List.range (gridDim w)).map (validWidth w)).sum = w := by
  refine (congrArg List.sum (List.map_congr_left fun col hcol => ?_)).trans (sum_clipped_fours w)
  obtain ⟨-, -, hmin, -⟩ := validWidthClipsLastColumn w col (List.mem_range.1 hcol)
  exact hmin

/-- The DST offsets the blits of all blocks of the grid write, in the grid's order. -/
def gridOffsets (w h : Nat) (tile : Nat × Nat → Vector Byte 64) : List Nat :=
  (gridBlocks w h).flatMap fun b => (blitStores w h b.1 b.2 (tile b)).map Prod.fst

theorem gridOffsets_length (w h : Nat) (tile : Nat × Nat → Vector Byte 64) :
    (gridOffsets w h tile).length = rasterBytes w h := by
  have hrow (row : Nat) :
      ((List.range (gridDim w)).map fun col => 4 * validWidth w col * min 4 (h - 4 * row)).sum =
        4 * w * min 4 (h - 4 * row) := by
    rw [List.sum_map_mul_right, List.sum_map_mul_left, sum_validWidth]
  simp only [gridOffsets, gridBlocks, List.flatMap_assoc, List.length_flatMap, List.flatMap_map, List.length_map,
    blitStores_length, hrow, List.sum_map_mul_left, sum_clipped_fours]
  rw [rasterBytes]
  ring

/-- Each offset of DST is written by the blit of its pixel's block. -/
theorem mem_gridOffsets {w h o : Nat} (ho : o < rasterBytes w h) (tile : Nat × Nat → Vector Byte 64) :
    o ∈ gridOffsets w h tile := by
  obtain ⟨x, y, c, hx, hy, hc, rfl⟩ := exists_pixelOffset ho
  have hcol := div_lt_gridDim hx
  refine List.mem_flatMap.2 ⟨(x / 4, y / 4), mem_gridBlocks.2 ⟨hcol, div_lt_gridDim hy⟩, ?_⟩
  exact List.mem_map.2 ⟨(_, _), (mem_blitStores hcol).2 ⟨x, y, c, hx, hy, hc, rfl, rfl, rfl, rfl⟩, rfl⟩

/-- Settles O57: every offset is written, and there are as many writes as offsets, so none is written twice. -/
theorem everyDstByteWrittenOnce : Obligations.EveryDstByteWrittenOnce := by
  intro w h tile
  have hsub : List.range (rasterBytes w h) ⊆ gridOffsets w h tile :=
    fun o ho => mem_gridOffsets (List.mem_range.1 ho) tile
  refine ((List.nodup_range.subperm hsub).perm_of_length_le ?_).symm
  rw [gridOffsets_length, List.length_range]

end Sys2Proof.Machine

namespace Sys2Proof.Machine

/-! The life of a command (45_blit_and_commands.md R97, R100 to R105): how it begins, what each turn of the BUSY unit
does, and how it ends with its raster in DST. -/

/-! ### Acceptance -/

/-- Settles O6: the state a launchable command begins in, field by field. -/
theorem launchableCommandBegins : Obligations.LaunchableCommandBegins := by
  intro i s hp hl
  rw [exec_of_launchable hp hl, State.beginCommand, statusWord_busy]
  rfl

/-- A command of zero size is refused by a BUSY unit only (R104). -/
theorem exec_of_zero_size {i : Instr} {s : State} (hb : s.isBusy = false) (h0 : i.width = 0 ∨ i.height = 0) :
    exec i s = .next (s.beginCommand (latchOf i)) := by
  have hacc : commandRefusal s i.dst i.src i.len i.width i.height = none := by
    rw [commandRefusal, hb, if_neg (by simp), if_pos h0]
  rw [exec_eq, acceptCommand, hacc]
  rfl

/-! ### The turns of a BUSY unit -/

theorem step_of_busy_unitMoves {s : State} {rest : List Turn} (hmoves : UnitMoves s rest) (hb : s.isBusy = true) :
    step s = .next (unitStep (s.popped rest)) := by
  rw [step_of_unitMoves hmoves, unitTurn_of_busy (s := s.popped rest) hb]

/-- An empty grid is DONE in the unit's first turn (R104, log 19). -/
theorem step_of_zero_size {s : State} {rest : List Turn} (hmoves : UnitMoves s rest) (hb : s.isBusy = true)
    (hst : s.stage = .read) (h0 : s.latch.width = 0 ∨ s.latch.height = 0) :
    step s = .next (s.popped rest).finish := by
  have hu : unitStep (s.popped rest) = (s.popped rest).finish :=
    (unitStep_of_read (s := s.popped rest) hst).trans (if_pos ((emptyGrid_eq_true_iff ..).2 h0))
  exact (step_of_busy_unitMoves hmoves hb).trans (congrArg _ hu)

theorem unitStep_of_block_in_len {s : State} (hst : s.stage = .read) (hw : s.latch.width ≠ 0)
    (hh : s.latch.height ≠ 0) (hl : s.cursor.off + Config.blockBytes s.latch.variant ≤ s.latch.len) :
    unitStep s = s.afterRead := by
  have he : ¬emptyGrid s.latch.width s.latch.height = true := by
    rw [emptyGrid_eq_true_iff]
    tauto
  rw [unitStep_of_read hst, if_neg he, if_neg (by omega)]

/-- An empty grid has no DST byte to lose, so its command ends with memory as it was, interfered with or not. -/
theorem finish_mem_of_zero_size {s : State} (h0 : s.latch.width = 0 ∨ s.latch.height = 0) : s.finish.mem = s.mem := by
  have hsize : rasterBytes s.latch.width s.latch.height = 0 := by
    rcases h0 with h0 | h0 <;> simp [rasterBytes, h0]
  rw [finish_mem, hsize]
  split <;> rfl

theorem finish_mem_of_not_dstLost {s : State} (h : s.dstLost = false) : s.finish.mem = s.mem := by
  rw [finish_mem, h]
  rfl

/-- Settles O10: acceptance and the step to DONE of an empty grid read no memory. -/
theorem zeroSizeCommandIsDone : Obligations.ZeroSizeCommandIsDone := by
  intro i s hb h0
  refine ⟨_, exec_of_zero_size hb h0, by simp, fun m => exec_of_zero_size (s := { s with mem := m }) hb h0,
    fun rest hmoves => ?_⟩
  exact ⟨_, step_of_zero_size hmoves (beginCommand_isBusy ..) rfl h0, by simp, rfl, rfl, rfl, rfl, fun m =>
    step_of_zero_size (s := { s with mem := m }.beginCommand (latchOf i)) hmoves (beginCommand_isBusy ..) rfl h0⟩

/-- Settles O21: the cursor starts at the first block and advances to the next index of the grid. -/
theorem blocksVisitedInRowMajorOrder : Obligations.BlocksVisitedInRowMajorOrder := by
  refine ⟨fun w h col row => gridBlocks_getElem?, fun i s t h => ?_, fun s h hb => (h.running hb).offset,
    fun s rest hb hst hmoves hcol hrow hnext => ?_⟩
  · obtain ⟨r, -, he⟩ | ⟨-, he⟩ := exec_cases i s <;> cases he.symm.trans h
    rfl
  · have hlast : s.cursor.isLast s.latch.width s.latch.height = false := by
      rw [Bool.eq_false_iff, Ne, isLast_iff_index hcol hrow]
      exact hnext.ne
    have hu : unitStep (s.popped rest) = (s.popped rest).afterBlit :=
      (unitStep_of_blit (s := s.popped rest) hst).trans (if_neg (by simp [hlast]))
    exact ⟨_, (step_of_busy_unitMoves hmoves hb).trans (congrArg _ hu), rfl, rfl,
      advance_index hcol hrow hlast (Config.blockBytes s.latch.variant)⟩

/-- Settles O59: a block within L is decoded; a tile is blitted, and the command goes on or, at the last block, is DONE;
an empty grid is DONE. -/
theorem unitTurnAdvancesCommand : Obligations.UnitTurnAdvancesCommand := by
  intro s rest hmoves hb
  have hstep := step_of_busy_unitMoves hmoves hb
  refine ⟨fun hst hw hh hl => ?_, fun hst hcol hrow => ?_, fun hst h0 => ?_⟩
  · exact hstep.trans (congrArg _ (unitStep_of_block_in_len (s := s.popped rest) hst hw hh hl))
  · have hindex := isLast_iff_index hcol hrow
    have hread := blitPlacesTilePixels s.mem s.latch.dstBase s.latch.width s.latch.height s.cursor.col s.cursor.row
      s.scratch.tile hcol
    have hu := unitStep_of_blit (s := s.popped rest) hst
    by_cases hlast : s.cursor.isLast s.latch.width s.latch.height = true
    · refine ⟨_, hstep.trans (congrArg _ (hu.trans (if_pos hlast))), rfl, rfl, rfl, rfl, rfl,
        fun hne => absurd (hindex.1 hlast) hne, fun _ => by simp, fun hkept => ?_⟩
      have hmark : s.dstLost = false := hkept.resolve_right (not_not_intro (hindex.1 hlast))
      rw [finish_mem_of_not_dstLost (s := (s.popped rest).withBlitted) hmark]
      exact hread
    · exact ⟨_, hstep.trans (congrArg _ (hu.trans (if_neg hlast))), rfl, rfl, rfl, rfl, rfl,
        fun _ => ⟨rfl, rfl, rfl⟩, fun heq => absurd (hindex.2 heq) hlast, fun _ => hread⟩
  · exact ⟨_, step_of_zero_size hmoves hb hst h0, by simp, finish_mem_of_zero_size (s := s.popped rest) h0, rfl, rfl,
      rfl⟩

/-! ### The run to DONE (R105) -/

/-- What the DONE case of DECODE_FN says of the state a command issued in state s ends in. -/
structure DoneWithRaster (i : Instr) (s u : State) : Prop where
  status : u.status = 0x00000002#32
  raster : ∀ x y c, x < i.width → y < i.height → c < 4 →
    u.mem.read (i.dst + (pixelOffset i.width x y + c)) =
      rasterByte i.variant (fun k => s.mem.read (i.src + k)) i.width x y c
  outside : ∀ a, ¬InRange i.dst (rasterBytes i.width i.height) a → u.mem.read a = s.mem.read a
  params : u.params = s.params
  pending : u.pending = []
  readData : u.readData = s.readData

/-- The accepted command, left alone, is DONE with its raster after the steps of log 2. -/
def RunsToDone (i : Instr) (s : State) : Prop :=
  ∃ u : State, Host.Core.run Sys2Proof.core (stepsToDone i.width i.height) (s.beginCommand (latchOf i)) = .next u ∧
    DoneWithRaster i s u

/-- An empty grid is DONE in one step, with no pixel to place. -/
theorem runsToDone_of_zero_size {i : Instr} {s : State} (hp : s.pending = []) (h0 : i.width = 0 ∨ i.height = 0) :
    RunsToDone i s := by
  have hsteps : stepsToDone i.width i.height = 1 := if_pos ((emptyGrid_eq_true_iff ..).2 h0)
  have hstep := step_of_zero_size (s := s.beginCommand (latchOf i)) (.inl ⟨hp, rfl⟩) (beginCommand_isBusy ..) rfl h0
  rw [RunsToDone, hsteps, run_succ hstep]
  refine ⟨_, run_zero _, by simp, fun x y c hx hy _ => ?_, fun a _ => rfl, rfl, rfl, rfl⟩
  omega

/-- The blit of the last block completes the raster. -/
theorem doneWithRaster_of_last_block {i : Instr} {s u : State} {k : Nat} (h : Progress i s k u)
    (hd : HostDuties s.params i) (hl : (k + 1) * Config.blockBytes i.variant ≤ i.len)
    (hk : k + 1 = gridDim i.width * gridDim i.height) : DoneWithRaster i s u.afterRead.withBlitted.finish := by
  obtain ⟨-, hmem⟩ := progress_finish h hl hk
  obtain ⟨hout, hdone⟩ := progress_blitted h hd hl
  rw [← hmem] at hout hdone
  exact
    { status := by simp
      raster := fun x y c hx hy hc => hdone x y c hx hy hc
        (hk ▸ blockIndex_lt (div_lt_gridDim hx) (div_lt_gridDim hy))
      outside := hout
      params := h.params
      pending := h.pending
      readData := h.readData }

/-- With L >= N every block is decoded and blitted, two steps each, and the last one leaves the whole raster. -/
theorem runsToDone_of_blocks {i : Instr} {s : State} (hp : s.pending = []) (hd : HostDuties s.params i)
    (he : emptyGrid i.width i.height = false) (hl : requiredLen i.variant i.width i.height ≤ i.len) :
    RunsToDone i s := by
  obtain ⟨hw, hh⟩ := (emptyGrid_eq_false_iff ..).1 he
  obtain ⟨k, hk⟩ : ∃ k, gridDim i.width * gridDim i.height = k + 1 :=
    Nat.exists_eq_succ_of_ne_zero (Nat.mul_pos hw hh).ne'
  have hsteps : stepsToDone i.width i.height = 2 * k + 2 := by
    rw [stepsToDone, he, hk]
    rfl
  have hlen : (k + 1) * Config.blockBytes i.variant ≤ i.len := by rwa [requiredLen, hk] at hl
  have hlen' : k * Config.blockBytes i.variant ≤ i.len := (Nat.mul_le_mul_right _ k.le_succ).trans hlen
  obtain ⟨u, hrun, hprog⟩ := progress_run hp hd he k (by omega) hlen'
  obtain ⟨hfinish, -⟩ := progress_finish hprog hlen hk.symm
  rw [RunsToDone, hsteps, run_add hrun]
  exact ⟨_, hfinish, doneWithRaster_of_last_block hprog hd hlen hk.symm⟩

/-- Settles O24: a launchable command is of zero size or meets the host's duties, and ends in DONE either way. -/
theorem decodeReachesDoneWithRaster : Obligations.DecodeReachesDoneWithRaster := by
  intro i s hparams hlaunch hp hl
  have hdone : RunsToDone i s := by
    by_cases h0 : i.width = 0 ∨ i.height = 0
    · exact runsToDone_of_zero_size hp h0
    · obtain ⟨hw, hh⟩ := not_or.1 h0
      have hd : HostDuties s.params i := (hlaunch.2.resolve_left hw).resolve_left hh
      have he : emptyGrid i.width i.height = false := by rwa [Bool.eq_false_iff, Ne, emptyGrid_eq_true_iff]
      exact runsToDone_of_blocks hp hd he hl
  obtain ⟨u, hrun, hstatus, hraster, hout, hparams', hpend, hread⟩ := hdone
  exact ⟨_, u, exec_of_launchable hparams hlaunch, hrun, hstatus, hraster, hout, hparams', hpend, hread⟩

end Sys2Proof.Machine

namespace Sys2Proof.Machine

/-! InputTooShort, the one exception (60_exceptions.md R106 to R109, R115): what the length check keeps from being read,
when the error is raised and with what effect, and how ERROR is left. -/

/-! ### Leaving ERROR (R115) -/

theorem not_isBusy_of_error {s : State} (h : s.status = 0x00000013#32) : s.isBusy = false :=
  not_isBusy_of_status (.inr (.inr h))

/-- A command looks at STATUS only to see whether the unit is BUSY, and overwrites it when it begins. -/
theorem exec_congr_isBusy {s : State} {w : Word} (hb : s.isBusy = State.isBusy { s with status := w }) (i : Instr) :
    exec i s = exec i { s with status := w } := by
  have hacc : commandRefusal s i.dst i.src i.len i.width i.height =
      commandRefusal { s with status := w } i.dst i.src i.len i.width i.height := by
    rw [commandRefusal, commandRefusal, hb]
  rw [exec_eq, exec_eq, acceptCommand, acceptCommand, hacc]
  rfl

/-- Settles O11: in ERROR the unit's turn is idle, so of the kinds of step only acceptance and reset write STATUS. -/
theorem errorLeftByCommandOrReset : Obligations.ErrorLeftByCommandOrReset := by
  refine ⟨fun s t hs hstep => ?_, fun i s hs => exec_congr_isBusy ?_ i⟩
  · have hidle := not_isBusy_of_error hs
    obtain ⟨rest, rfl⟩ | ⟨d, rest, i, hp, -, -, rfl⟩ | ⟨rest, hp, rfl⟩ | ⟨hkept, -⟩ := step_command_effect hstep
    · rw [unitTurn_of_not_busy (s := s.popped rest) hidle]
      exact .inl hs
    · exact .inr (.inl ⟨d, rest, hp, by simp⟩)
    · exact .inr (.inr ⟨rest, hp, by simp⟩)
    · exact .inl (hkept.trans hs)
  · rw [not_isBusy_of_error hs, not_isBusy_of_status (.inl rfl)]

/-! ### What a block's decode reads (R107) -/

/-- Memories that agree on the block's bytes below L hold the same block, when it lies within L. -/
theorem blockAtCursor_congr {s : State} {m : Memory}
    (hl : s.cursor.off + Config.blockBytes s.latch.variant ≤ s.latch.len)
    (h : ∀ o, s.cursor.off ≤ o → o < s.cursor.off + Config.blockBytes s.latch.variant → o < s.latch.len →
      m.read (s.latch.srcBase + o) = s.mem.read (s.latch.srcBase + o)) :
    State.blockAtCursor { s with mem := m } = s.blockAtCursor := by
  refine readBytes_congr fun k (hk : k < Config.blockBytes s.latch.variant) => ?_
  rw [Nat.add_assoc]
  exact h (s.cursor.off + k) (by omega) (by omega) (by omega)

/-- Settles O19: the length check and the end of an empty grid read no memory, and a block that is decoded lies within
L. -/
theorem onlyBytesBelowLenAreRead : Obligations.OnlyBytesBelowLenAreRead := by
  intro s m hst hagree
  rw [unitStep_of_read hst, unitStep_of_read (s := { s with mem := m }) hst]
  dsimp only
  split
  · exact ⟨rfl, rfl, rfl⟩
  split
  · exact ⟨rfl, rfl, rfl⟩
  · have hblock := blockAtCursor_congr (by omega) hagree
    exact ⟨rfl, congrArg (decodeBlock s.latch.variant · s.scratch) hblock, rfl⟩

/-! ### Raising InputTooShort (R106, R108) -/

theorem unitStep_of_short_block {s : State} (hst : s.stage = .read) (hw : s.latch.width ≠ 0)
    (hh : s.latch.height ≠ 0) (hl : s.latch.len < s.cursor.off + Config.blockBytes s.latch.variant) :
    unitStep s = s.raiseInputTooShort := by
  have he : ¬emptyGrid s.latch.width s.latch.height = true :=
    (emptyGrid_eq_true_iff ..).not.2 (not_or.2 ⟨hw, hh⟩)
  rw [unitStep_of_read hst, if_neg he, if_pos hl]

/-- The error changes no byte outside DST (R108). -/
theorem raiseInputTooShort_read_outside {s : State} {a : Nat}
    (ha : ¬InRange s.latch.dstBase (rasterBytes s.latch.width s.latch.height) a) :
    s.raiseInputTooShort.mem.read a = s.mem.read a :=
  endCommand_read_outside ha _ _

/-- After the error a DST byte is any value (R108). -/
theorem raiseInputTooShort_read_inside {s : State} {a : Nat}
    (ha : InRange s.latch.dstBase (rasterBytes s.latch.width s.latch.height) a) :
    s.raiseInputTooShort.mem.read a = Config.freeByte s.draws a :=
  read_lose_inside ha

/-- A turn of a unit that is not BUSY only passes. -/
theorem step_of_not_busy_unitMoves {s : State} {rest : List Turn} (hmoves : UnitMoves s rest)
    (hb : s.isBusy = false) : step s = .next (s.popped rest) := by
  rw [step_of_unitMoves hmoves, unitTurn_of_not_busy (s := s.popped rest) hb]

/-- Settles O20: the turn raises the error, whose effects are those of the operation. -/
theorem shortBlockRaisesInputTooShort : Obligations.ShortBlockRaisesInputTooShort := by
  intro s rest hb hst hmoves hw hh hl
  have hstep : step s = .next (s.popped rest).raiseInputTooShort :=
    (step_of_busy_unitMoves hmoves hb).trans
      (congrArg _ (unitStep_of_short_block (s := s.popped rest) hst hw hh hl))
  have houtside (a : Nat) : ¬InRange s.latch.dstBase (rasterBytes s.latch.width s.latch.height) a →
      (s.popped rest).raiseInputTooShort.mem.read a = s.mem.read a :=
    raiseInputTooShort_read_outside (s := s.popped rest)
  exact ⟨_, hstep, by simp, fun rest' hmoves' => step_of_not_busy_unitMoves hmoves' (by simp), houtside,
    fun a => raiseInputTooShort_read_inside (s := s.popped rest),
    fun hinv k hk => houtside _ ((hinv.running hb).src_outside_dst hw hh hk), rfl, rfl, rfl⟩

/-! ### The run to ERROR (R105, R107) -/

theorem blockBytes_pos (v : Variant) : 0 < Config.blockBytes v := by
  cases v <;> decide

/-- A command that needs any input has a grid with a block. -/
theorem emptyGrid_eq_false_of_requiredLen_pos {v : Variant} {w h : Nat} (hpos : 0 < requiredLen v w h) :
    emptyGrid w h = false :=
  (emptyGrid_eq_false_iff w h).2 (CanonicallyOrderedAdd.mul_pos.1 (Nat.pos_of_mul_pos_right hpos))

/-- With L < N the unit does the L div BB whole blocks of its input and comes to the block that passes L. -/
theorem progress_run_short {i : Instr} {s : State} (hp : s.pending = []) (hd : HostDuties s.params i)
    (hshort : i.len < requiredLen i.variant i.width i.height) :
    ∃ v : State,
      Host.Core.run Sys2Proof.core (2 * (i.len / Config.blockBytes i.variant)) (s.beginCommand (latchOf i)) = .next v ∧
      Progress i s (i.len / Config.blockBytes i.variant) v ∧ step v = .next v.raiseInputTooShort := by
  have hbb := blockBytes_pos i.variant
  have he := emptyGrid_eq_false_of_requiredLen_pos (Nat.zero_lt_of_lt hshort)
  have hblocks : i.len / Config.blockBytes i.variant < gridDim i.width * gridDim i.height :=
    (Nat.div_lt_iff_lt_mul hbb).2 hshort
  have hpasses : i.len < (i.len / Config.blockBytes i.variant + 1) * Config.blockBytes i.variant :=
    (Nat.div_lt_iff_lt_mul hbb).1 (Nat.lt_succ_self _)
  obtain ⟨v, hrun, hprog⟩ := progress_run hp hd he _ hblocks (Nat.div_mul_le_self ..)
  exact ⟨v, hrun, hprog, progress_short hprog hpasses⟩

/-- Settles O25: with L < N the command is not of zero size, so it met the host's duties; it runs up to the block that
passes L and the error is raised there. -/
theorem shortInputReachesError : Obligations.ShortInputReachesError := by
  intro i s hparams hlaunch hp hshort
  have he := emptyGrid_eq_false_of_requiredLen_pos (Nat.zero_lt_of_lt hshort)
  obtain ⟨hw, hh⟩ := not_or.1 ((emptyGrid_eq_true_iff i.width i.height).not.1 (by simp [he]))
  have hd : HostDuties s.params i := (hlaunch.2.resolve_left hw).resolve_left hh
  obtain ⟨v, hrun, hprog, hraise⟩ := progress_run_short hp hd hshort
  refine ⟨_, v, _, exec_of_launchable hparams hlaunch, hrun, hprog.status, hprog.stage, hprog.index, hprog.off, hraise,
    by simp, fun a ha => ?_, hprog.params, hprog.pending, hprog.readData⟩
  exact (raiseInputTooShort_read_outside (by rwa [hprog.latch])).trans (hprog.outside a ha)

end Sys2Proof.Machine

namespace Sys2Proof.Machine

/-! Reset and the hazards between unit and host (70_reset_and_hazards.md): a command to a BUSY unit (R124), a command with
an unfit region (R125), reset while a command runs (R119, R120), and the end of a BUSY unit (R128). -/

/-! ### Refused commands (R124, R125) -/

/-- A BUSY unit judges nothing else of a command. -/
theorem commandRefusal_of_busy {s : State} (hb : s.isBusy = true) (dst src len width height : Nat) :
    commandRefusal s dst src len width height = some .busy :=
  if_pos hb

/-- Settles O7: BUSY is the first ground a command is judged by. -/
theorem busyUnitRefusesCommands : Obligations.BusyUnitRefusesCommands :=
  fun _ s hs => exec_of_commandRefusal (commandRefusal_of_busy ((isBusy_iff s).2 hs) ..)

/-- A command not of zero size begins only where the host's duties are met. -/
theorem exec_refused_of_not_hostDuties {i : Instr} {s : State} (hw : i.width ≠ 0) (hh : i.height ≠ 0)
    (hd : ¬HostDuties s.params i) : ∃ r, exec i s = .refused r := by
  obtain ⟨r, -, he⟩ | ⟨hacc, -⟩ := exec_cases i s
  · exact ⟨r, he⟩
  · obtain ⟨-, hlaunch⟩ := launchable_of_commandRefusal hacc
    exact absurd ((hlaunch.resolve_left hw).resolve_left hh) hd

/-- Settles O9: each way a region is unfit breaks one of the host's duties, which a command of zero size does not have. -/
theorem unfitRegionRefused : Obligations.UnfitRegionRefused := by
  refine ⟨fun i s hw hh hunfit => exec_refused_of_not_hostDuties hw hh fun hd => ?_,
    fun i s hb h0 => ⟨_, exec_of_zero_size hb h0⟩⟩
  rcases hunfit with hsrc | hdst | ⟨a, ha, hnone⟩ | ⟨a, ha, hnone⟩
  · exact hsrc.not_ge hd.srcTop
  · exact hdst.not_ge hd.dstTop
  · obtain ⟨r, hr, hread, hin⟩ := hd.srcPlain a ha
    exact hnone r hr hread hin
  · obtain ⟨r, hr, hwrite, hin⟩ := hd.dstPlain a ha
    exact hnone r hr hwrite hin

/-! ### Reset (R119, R120) -/

/-- Reset loses no byte of memory but those of a running command's DST. -/
theorem assertReset_read_kept {s : State} {a : Nat}
    (h : s.isBusy = false ∨ ¬InRange s.latch.dstBase (rasterBytes s.latch.width s.latch.height) a) :
    s.assertReset.mem.read a = s.mem.read a := by
  rcases h with hb | ha
  · rw [assertReset_mem, if_neg (by simp [hb])]
  · exact endCommand_read_outside ha _ _

/-- Reset makes a DST byte of a running command any value. -/
theorem assertReset_read_lost {s : State} {a : Nat} (hb : s.isBusy = true)
    (ha : InRange s.latch.dstBase (rasterBytes s.latch.width s.latch.height) a) :
    s.assertReset.mem.read a = Config.freeByte s.draws a := by
  rw [assertReset_mem, if_pos hb]
  exact read_lose_inside ha

/-- Settles O13: the turn's effects are those of the operation, and a unit that is not BUSY idles. -/
theorem resetAbortsTheCommand : Obligations.ResetAbortsTheCommand := by
  intro s rest hp
  exact ⟨_, step_reset hp, by simp, rfl, rfl, rfl, fun a => assertReset_read_kept (s := s.popped rest),
    fun a => assertReset_read_lost (s := s.popped rest), unitTurn_of_not_busy (assertReset_isBusy _)⟩

/-! ### A BUSY unit ends (R128) -/

/-- Settles O26: with no turn pending the unit runs to its end, within the steps that are left of the command's. -/
theorem busyEndsInBoundedSteps : Obligations.BusyEndsInBoundedSteps := by
  intro s h hb hp
  obtain ⟨n, t, hn, hrun, -, hend⟩ := run_to_end h hb (.inl ⟨hp, hp⟩)
  exact ⟨n, t, hn.trans (stepsLeft_le s), hrun, hend⟩

end Sys2Proof.Machine
